-- ==== Sys2Proof/Word.lean ====
section
/-! DEFINITION. The bit patterns of the block: the widths of its ports (10_state.md R21, R22), of its
command word (30_encoding.md R60) and of the formats it carries (R30). Types only; every field of a
pattern is read in Machine/Fields.lean. -/

namespace Sys2Proof

/-- Port `op`, OP_WIDTH = 4 bits (R8, R21). -/
abbrev OpCode := BitVec 4

/-- Ports `a` and `y`, A_WIDTH = Y_WIDTH = 64 bits (R8, R21, R22). Also a binary64 pattern, whose
fields the block never examines (R30). -/
abbrev Port := BitVec 64

/-- The 68-bit command word `CMD = {op, a}` (R60). -/
abbrev Command := BitVec 68

/-- A 16-bit half pattern, IEEE or alternate (R4, R30). -/
abbrev Half := BitVec 16

/-- A binary32 pattern (R4, R30). -/
abbrev Single := BitVec 32

/-- A sign bit: one bit, so that it concatenates as the rules' `{s, ...}` does (R10, R12). -/
abbrev Sign := BitVec 1

end Sys2Proof
end

