-- ==== Sys2Proof/Machine/Fields.lean ====
section
/-! DEFINITION. The fields of the patterns (00_scope.md R12, 10_state.md R30), their classes (R13) and
the leading-one detector (R10). -/

namespace Sys2Proof.Machine

/-- `s = h[15]` (R12). -/
def halfSign (h : Half) : Sign := h.extractLsb' 15 1
/-- `e = h[14:10]` (R12). -/
def halfExp (h : Half) : BitVec 5 := h.extractLsb' 10 5
/-- `m = h[9:0]` (R12). -/
def halfMan (h : Half) : BitVec 10 := h.extractLsb' 0 10

/-- `S = w[31]` (R12). -/
def singleSign (w : Single) : Sign := w.extractLsb' 31 1
/-- `E = w[30:23]` (R12). -/
def singleExp (w : Single) : BitVec 8 := w.extractLsb' 23 8
/-- `M = w[22:0]` (R12). -/
def singleMan (w : Single) : BitVec 23 := w.extractLsb' 0 23

/-- The half pattern `{s, e, m}` (R10, R12). -/
def packHalf (s : Sign) (e : BitVec 5) (m : BitVec 10) : Half := s ++ e ++ m
/-- The half pattern `{s, magnitude}`, the magnitude being the fifteen bits below the sign. -/
def packHalfMag (s : Sign) (mag : BitVec 15) : Half := s ++ mag
/-- The binary32 pattern `{S, E, M}` (R10, R12). -/
def packSingle (s : Sign) (e : BitVec 8) (m : BitVec 23) : Single := s ++ e ++ m

/-- The classes of R13. -/
inductive FloatClass where
  | zero
  | subnormal
  | normal
  | infinity
  | nan
deriving DecidableEq, Repr

/-- R13, the column of the IEEE half; exponent field 31 is reserved (R4). -/
def ieeeClass (h : Half) : FloatClass :=
  if halfExp h = 0#5 then (if halfMan h = 0#10 then .zero else .subnormal)
  else if halfExp h = 31#5 then (if halfMan h = 0#10 then .infinity else .nan)
  else .normal

/-- R13, the column of the alt half: exponent field 31 is an ordinary normal exponent (R4). -/
def altClass (h : Half) : FloatClass :=
  if halfExp h = 0#5 then (if halfMan h = 0#10 then .zero else .subnormal) else .normal

/-- R13, the column of binary32. -/
def singleClass (w : Single) : FloatClass :=
  if singleExp w = 0#8 then (if singleMan w = 0#23 then .zero else .subnormal)
  else if singleExp w = 255#8 then (if singleMan w = 0#23 then .infinity else .nan)
  else .normal

/-- A class of finite patterns: neither infinity nor NaN. -/
def FloatClass.isFinite : FloatClass → Bool
  | .zero | .subnormal | .normal => true
  | .infinity | .nan => false

/-- The largest `i < n` with `m[i] = 1`, if there is one. -/
def leadingOneBelow (m : BitVec 10) : Nat → Option Nat
  | 0 => none
  | i + 1 => if m.getLsbD i then some i else leadingOneBelow m i

/-- `lod10(m)` (R10): the largest `i` with `m[i] = 1`. R10 leaves `lod10(0)` undefined and no rule
applies it to 0: there the detector answers `none` (DESIGN CHOICE, safe, log 11). -/
def lod10 (m : BitVec 10) : Option Nat := leadingOneBelow m 10

end Sys2Proof.Machine
end

