-- ==== Sys2Proof/Syntax.lean ====
section
/-! DEFINITION. The ten operations of 30_encoding.md R62, one constructor per row of
spec/opcode_table.json, each with the operand field `a` of its command word (R60). Which bits of `a`
an operation reads is its operand form (R64), in Machine/Operands.lean. -/

namespace Sys2Proof

/-- A decoded command: the operation that `op` selects, and the 64-bit operand `a` it came with. -/
inductive Instr where
  /-- op 0x0, R93 -/
  | ieeeHalfToSingleBits (a : Port)
  /-- op 0x1, R95 -/
  | ieeeHalfToSingleValue (a : Port)
  /-- op 0x2, R98 -/
  | singleToIeeeHalfValue (a : Port)
  /-- op 0x4, R110 -/
  | altHalfToSingleBits (a : Port)
  /-- op 0x5, R111 -/
  | altHalfToSingleValue (a : Port)
  /-- op 0x6, R112 -/
  | singleToAltHalfValue (a : Port)
  /-- op 0x8, R81 -/
  | bitsToSingleValue (a : Port)
  /-- op 0x9, R82 -/
  | singleValueToBits (a : Port)
  /-- op 0xA, R83 -/
  | bitsToDoubleValue (a : Port)
  /-- op 0xB, R84 -/
  | doubleValueToBits (a : Port)
deriving DecidableEq, Repr

end Sys2Proof
end

