-- ==== Sys2Proof/Operation.lean ====
section
/-! DEFINITION. An operation without its operand (the mnemonic column of 30_encoding.md R62), the
sub-units of 00_scope.md R2, and the written command sequences of R69, which name an operation and
where its operand comes from. Names only; their codes, widths and texts stand in Decode.lean and
under Machine/. -/

namespace Sys2Proof

/-- The ten operations, in the order of R62. -/
inductive Operation where
  | ieeeHalfToSingleBits
  | ieeeHalfToSingleValue
  | singleToIeeeHalfValue
  | altHalfToSingleBits
  | altHalfToSingleValue
  | singleToAltHalfValue
  | bitsToSingleValue
  | singleValueToBits
  | bitsToDoubleValue
  | doubleValueToBits
deriving DecidableEq, Repr

/-- The sub-units of the block (R1, R2). -/
inductive SubUnit where
  | float16ToFloat32Converter
  | float32ToFloat16Converter
  | bitcastReinterpreter
  | roundingUnit
deriving DecidableEq, Repr

/-- Where a written command takes its operand from (R69): a literal, the result `y` of the earlier
command `tJ`, or a slice `[hi:lo]` of it, which the host may pass too (R32, "a later `a` equal to an
earlier `y`, or a slice of it"). -/
inductive Src where
  | literal (v : Nat)
  | result (j : Nat)
  | slice (j hi lo : Nat)
deriving DecidableEq, Repr

/-- One line `tK <- <mnemonic> <src>` of a command sequence (R69); K is the line's place in the
sequence, counted from 0. -/
structure Line where
  op : Operation
  src : Src
deriving DecidableEq, Repr

/-- The operation of a decoded command. -/
def Instr.operation : Instr → Operation
  | .ieeeHalfToSingleBits _ => .ieeeHalfToSingleBits
  | .ieeeHalfToSingleValue _ => .ieeeHalfToSingleValue
  | .singleToIeeeHalfValue _ => .singleToIeeeHalfValue
  | .altHalfToSingleBits _ => .altHalfToSingleBits
  | .altHalfToSingleValue _ => .altHalfToSingleValue
  | .singleToAltHalfValue _ => .singleToAltHalfValue
  | .bitsToSingleValue _ => .bitsToSingleValue
  | .singleValueToBits _ => .singleValueToBits
  | .bitsToDoubleValue _ => .bitsToDoubleValue
  | .doubleValueToBits _ => .doubleValueToBits

/-- The operand field `a` of a decoded command. -/
def Instr.operand : Instr → Port
  | .ieeeHalfToSingleBits a | .ieeeHalfToSingleValue a | .singleToIeeeHalfValue a
  | .altHalfToSingleBits a | .altHalfToSingleValue a | .singleToAltHalfValue a
  | .bitsToSingleValue a | .singleValueToBits a | .bitsToDoubleValue a | .doubleValueToBits a => a

/-- The command that presents operation `o` with operand `a`. -/
def Operation.instr : Operation → Port → Instr
  | .ieeeHalfToSingleBits => .ieeeHalfToSingleBits
  | .ieeeHalfToSingleValue => .ieeeHalfToSingleValue
  | .singleToIeeeHalfValue => .singleToIeeeHalfValue
  | .altHalfToSingleBits => .altHalfToSingleBits
  | .altHalfToSingleValue => .altHalfToSingleValue
  | .singleToAltHalfValue => .singleToAltHalfValue
  | .bitsToSingleValue => .bitsToSingleValue
  | .singleValueToBits => .singleValueToBits
  | .bitsToDoubleValue => .bitsToDoubleValue
  | .doubleValueToBits => .doubleValueToBits

end Sys2Proof
end

