-- ==== Sys2Proof/Machine/Operands.lean ====
section
/-! DEFINITION. Every operand form and result form: the low slice of `a` that an operation reads
(30_encoding.md R64), where its result stands in `y` (R65), the two widths (20_memory.md R45), and the
sub-units an operation uses (00_scope.md R2, 30_encoding.md R62). There is no immediate, no sign
extension, no scaling and no register specifier (R64). -/

namespace Sys2Proof.Machine

/-- `h = a[15:0]` (R64). -/
def halfOperand (a : Port) : Half := a.extractLsb' 0 16
/-- `w = a[31:0]` (R64). -/
def singleOperand (a : Port) : Single := a.extractLsb' 0 32
/-- `d = a[63:0]` (R64). -/
def doubleOperand (a : Port) : Port := a

/-- `y <- zext_64(h)` (R65). -/
def placeHalf (h : Half) : Port := h.setWidth 64
/-- `y <- zext_64(w)` (R65). -/
def placeSingle (w : Single) : Port := w.setWidth 64
/-- `y <- d` (R65). -/
def placeDouble (d : Port) : Port := d

/-- How many low bits of `a` an operation reads (R45, R64). -/
def operandWidth : Operation → Nat
  | .ieeeHalfToSingleBits | .ieeeHalfToSingleValue
  | .altHalfToSingleBits | .altHalfToSingleValue => 16
  | .singleToIeeeHalfValue | .singleToAltHalfValue
  | .bitsToSingleValue | .singleValueToBits => 32
  | .bitsToDoubleValue | .doubleValueToBits => 64

/-- How many low bits of `y` hold the result of an operation (R45, R65). -/
def resultWidth : Operation → Nat
  | .singleToIeeeHalfValue | .singleToAltHalfValue => 16
  | .ieeeHalfToSingleBits | .ieeeHalfToSingleValue
  | .altHalfToSingleBits | .altHalfToSingleValue
  | .bitsToSingleValue | .singleValueToBits => 32
  | .bitsToDoubleValue | .doubleValueToBits => 64

/-- The sub-units that carry out an operation (R2, R62): the rounding unit has no operation of its own
and serves both encodes. -/
def subUnits : Operation → List SubUnit
  | .ieeeHalfToSingleBits | .ieeeHalfToSingleValue
  | .altHalfToSingleBits | .altHalfToSingleValue => [.float16ToFloat32Converter]
  | .singleToIeeeHalfValue | .singleToAltHalfValue => [.float32ToFloat16Converter, .roundingUnit]
  | .bitsToSingleValue | .singleValueToBits
  | .bitsToDoubleValue | .doubleValueToBits => [.bitcastReinterpreter]

end Sys2Proof.Machine
end

