-- ==== Sys2Proof/WellFormed.lean ====
section
/-! DEFINITION. Well-formedness of written commands and command sequences (30_encoding.md R69). The
block itself accepts every operand (R64 ignores the bits above the operand width), so decoding and
execution do not ask for it: a decoded command that is not well-formed is one that R69's syntax cannot
write, and it runs all the same (DEDUCED, safe, log 10). -/

namespace Sys2Proof

/-- A command that R69 can write: the operand's "value fits the operand width of rule R64", "The bits
above that width are 0 in the encoded `a`". -/
def Instr.wellFormed (i : Instr) : Bool :=
  decide (i.operand.toNat < 2 ^ Machine.operandWidth i.operation)

/-- A source of line `k` (R69): a literal fits the operand width; a name `tJ` is that of an earlier
line; a slice `[hi:lo]` lies in the 64 bits of `y`, the high end not below the low end (R9). -/
def Src.wellFormed (o : Operation) (k : Nat) : Src → Bool
  | .literal v => decide (v < 2 ^ Machine.operandWidth o)
  | .result j => decide (j < k)
  | .slice j hi lo => decide (j < k) && decide (lo ≤ hi) && decide (hi < 64)

/-- Line `k` of a sequence is well-formed when its source is. -/
def Line.wellFormed (k : Nat) (l : Line) : Bool := l.src.wellFormed l.op k

/-- The lines `k`, `k + 1`, … of a sequence are well-formed. -/
def wellFormedFrom : Nat → List Line → Bool
  | _, [] => true
  | k, l :: ls => l.wellFormed k && wellFormedFrom (k + 1) ls

/-- A command sequence of R69: its first line names `t0`. -/
def wellFormedProgram (ls : List Line) : Bool := wellFormedFrom 0 ls

end Sys2Proof
end

