-- ==== Sys2Proof/Decode.lean ====
section
/-! DEFINITION. Decoding and encoding of the command word (30_encoding.md R60 to R63, R67, R70). The
decoder is total on 68-bit words and rejects a reserved code by name. -/

namespace Sys2Proof

/-- `op = CMD[67:64]` (R60). -/
def opField (c : Command) : OpCode := c.extractLsb' 64 4

/-- `a = CMD[63:0]` (R60). -/
def aField (c : Command) : Port := c.extractLsb' 0 64

/-- `CMD = {op, a}` (R60). -/
def makeCommand (op : OpCode) (a : Port) : Command := op ++ a

/-- The opcode map of R62, read from operation to code. -/
def codeOf : Operation → OpCode
  | .ieeeHalfToSingleBits => 0x0#4
  | .ieeeHalfToSingleValue => 0x1#4
  | .singleToIeeeHalfValue => 0x2#4
  | .altHalfToSingleBits => 0x4#4
  | .altHalfToSingleValue => 0x5#4
  | .singleToAltHalfValue => 0x6#4
  | .bitsToSingleValue => 0x8#4
  | .singleValueToBits => 0x9#4
  | .bitsToDoubleValue => 0xA#4
  | .doubleValueToBits => 0xB#4

/-- The opcode map of R62, read from code to operation, the ten rows that have an
operation; `none` is "reserved", the codes 0x3, 0x7 and 0xC to 0xF (R67). -/
def operationOf (op : OpCode) : Option Operation :=
  match op with
  | 0x0#4 => some .ieeeHalfToSingleBits
  | 0x1#4 => some .ieeeHalfToSingleValue
  | 0x2#4 => some .singleToIeeeHalfValue
  | 0x4#4 => some .altHalfToSingleBits
  | 0x5#4 => some .altHalfToSingleValue
  | 0x6#4 => some .singleToAltHalfValue
  | 0x8#4 => some .bitsToSingleValue
  | 0x9#4 => some .singleValueToBits
  | 0xA#4 => some .bitsToDoubleValue
  | 0xB#4 => some .doubleValueToBits
  | _ => none

/-- R63, the structure of the codes, as a second decoder that looks at single bits of `op`. R62 is the
authority; that the two agree is an obligation. -/
def structuredOperation (op : OpCode) : Option Operation :=
  if op[3] then
    if op[2] then none
    else match op[1], op[0] with
      | false, false => some .bitsToSingleValue
      | false, true => some .singleValueToBits
      | true, false => some .bitsToDoubleValue
      | true, true => some .doubleValueToBits
  else match op[2], op[1], op[0] with
    | false, false, false => some .ieeeHalfToSingleBits
    | false, false, true => some .ieeeHalfToSingleValue
    | false, true, false => some .singleToIeeeHalfValue
    | true, false, false => some .altHalfToSingleBits
    | true, false, true => some .altHalfToSingleValue
    | true, true, false => some .singleToAltHalfValue
    | _, true, true => none

/-- Why the decoder rejects a word. -/
inductive DecodeError where
  /-- `op` is one of the reserved codes 0x3, 0x7, 0xC to 0xF (R67). -/
  | reservedCode (op : OpCode)
deriving DecidableEq, Repr

/-- The decoder: it reads `op` only (R61) and hands `a` on. -/
def decode (c : Command) : Except DecodeError Instr :=
  match operationOf (opField c) with
  | some o => .ok (o.instr (aField c))
  | none => .error (.reservedCode (opField c))

/-- The command word of a decoded command (R60, R62). -/
def encode (i : Instr) : Command := makeCommand (codeOf i.operation) i.operand

/-- The word of a written command `<mnemonic> <operand>`: `CMD = {op, a}` with `a = zext_64(<operand>)`
(R70); `none` where the literal does not fit the operand width (R69). -/
def encodeWritten (o : Operation) (v : Nat) : Option Command :=
  if v < 2 ^ Machine.operandWidth o then some (encode (o.instr (BitVec.ofNat 64 v))) else none

/-- A word numbered as spec/opcode_table.json numbers it (bit 0 of `a` is bit 0, `op` is bits 67:64),
its bits at and above `nbits` taken as 0. Every command is 68 bits (R60), so a word with a bit at or
above 68 is no command (DESIGN CHOICE, safe, log 8). -/
def tableCommand (nbits w : Nat) : Option Command :=
  if w % 2 ^ nbits < 2 ^ 68 then some (BitVec.ofNat 68 (w % 2 ^ nbits)) else none

/-- The instruction the decoder reads from such a word. -/
def decodeTableWord (nbits w : Nat) : Option Instr :=
  match tableCommand nbits w with
  | some c => (match decode c with | .ok i => some i | .error _ => none)
  | none => none

end Sys2Proof
end

