-- ==== Sys2Proof/Machine/Rounding.lean ====
section
/-! DEFINITION. The rounding unit `RU(sig, n)` (41_ieee_codec.md R96, R97), shared by both encodes. Its
signals exist only during one command (10_state.md R29). -/

namespace Sys2Proof.Machine

/-- `q = sig >> n`, the kept part. -/
def ruKept (sig : BitVec 24) (n : Nat) : Nat := sig.toNat >>> n

/-- `g = sig[n-1]`, the guard bit: the first discarded bit; 0 when `n = 25`, since `sig[24]` is 0. -/
def ruGuard (sig : BitVec 24) (n : Nat) : Bool := sig.getLsbD (n - 1)

/-- `st = (sig[n-2:0] != 0)`, the sticky bit: the OR of every bit below the guard. -/
def ruSticky (sig : BitVec 24) (n : Nat) : Bool := decide (sig.toNat % 2 ^ (n - 1) ≠ 0)

/-- `inc = g and (st or q[0])`. -/
def ruIncrement (sig : BitVec 24) (n : Nat) : Bool :=
  ruGuard sig n && (ruSticky sig n || (ruKept sig n).testBit 0)

/-- `RU(sig, n) = q + inc`: `sig >> n` rounded to nearest, ties to even. The rules apply it for
`13 <= n <= 25` only (safe, log 11). -/
def roundingUnit (sig : BitVec 24) (n : Nat) : Nat := ruKept sig n + (ruIncrement sig n).toNat

end Sys2Proof.Machine
end

