-- ==== Sys2Proof/Machine/State.lean ====
section
/-! DEFINITION. What the machine holds: its ports (10_state.md R21, R22) and whether the outputs are
valid (70_reset_and_hazards.md R151). The block has no register, flag, memory or hidden state (R24 to
R29, R40). -/

namespace Sys2Proof.Machine

/-- The output ports (R22): the result `y`, and `illegal`, which is 1 exactly for a reserved code. -/
structure Output where
  y : Port
  illegal : Bool
deriving DecidableEq, Repr

/-- The ports of the block. `input` is the command word on ports `op` and `a` (R21, R60), `none` while
the host has presented none since power-up. `output` is what ports `y` and `illegal` show once they
are the result of a command, `none` before that, when their value is unspecified and a read is a fault
(R151). Neither is state of the block: a step makes `output` from `input` alone (DESIGN CHOICE, safe, log 3). -/
structure State where
  input : Option Command
  output : Option Output
deriving DecidableEq, Repr

/-- R150, R151: no state to reset, no command presented, no result that may be read (DEDUCED, safe, log 4). -/
def State.reset : State := { input := none, output := none }

/-- Why the machine stops. No operation raises any of these (R130). -/
inductive Fault where
  /-- Raised by `step` when no command is on the input ports. Safe: the outputs would be unspecified
  (R151), so nothing is claimed of them (DEDUCED, log 5). -/
  | noCommand
  /-- Raised by `sample` and `Pipe.sampleAt` when the outputs are not yet the result of a command (R151:
  "A model must treat such a read as a **fault**, not as a value"). Safe. -/
  | resultNotValid
deriving DecidableEq, Repr

/-- Why the model has no transition. -/
inductive Refusal where
  /-- Raised by `exec` for an operation without a meaning. No arm raises it. Safe. -/
  | notModelled (mnemonic : String)
  /-- Raised by `step`, and by `Pipe.sampleAt` when the command arrives, for a reserved operation code (R67: "A model should **refuse** a command with a
  reserved code, rather than give it the value 0"; I8). Safe. -/
  | reservedCode (op : OpCode)
  /-- Raised by the host's program runner for a line that names a result not sampled before it, which
  R69 does not allow ("an earlier name `tJ`"). Safe (DESIGN CHOICE, log 13). -/
  | unboundName (j : Nat)
deriving DecidableEq, Repr

end Sys2Proof.Machine
end

