-- ==== Sys2Proof/Machine/Ops.lean ====
section
/-! DEFINITION. The operations that several operations of the block share: driving the output ports, the
host's two moves, the two decode paths and the magnitude of the encode path.

There is no operation that takes an exception and none that returns from one: the block raises none
(60_exceptions.md R130, R134, R135). It reads and writes no memory (20_memory.md R40). -/

namespace Sys2Proof.Machine

/-- `out.y <- y; out.illegal <- 0`: what each of the ten operations does to the outputs (R65). -/
def driveResult (y : Port) (s : State) : State :=
  { s with output := some { y := y, illegal := false } }

/-- The host presents a command (R32): it drives ports `op` and `a`. Until the outputs have settled,
which is a step, they are no result of it and may not be read (R151; DEDUCED, safe, log 7). -/
def present (c : Command) (_s : State) : State := { input := some c, output := none }

/-- The host samples the outputs (R32). Before a result is valid the read is a fault (R151). -/
def sample (s : State) : Host.Outcome Output Fault Refusal :=
  match s.output with
  | some o => .next o
  | none => .fault .resultNotValid

/-- A half normal re-biased to binary32: `{s, (e + 112)[7:0], m, 13'b0}` (R93, R110). -/
def expandNormal (s : Sign) (e : BitVec 5) (m : BitVec 10) : Single :=
  s ++ BitVec.ofNat 8 (e.toNat + 112) ++ m ++ 0#13

/-- A half subnormal with leading one at `p`, normalised (R92):
`{s, (p + 103)[7:0], (zext_24(m) << (23 - p))[22:0]}`. -/
def expandSubnormal (s : Sign) (m : BitVec 10) (p : Nat) : Single :=
  s ++ BitVec.ofNat 8 (p + 103) ++ (m.setWidth 24 <<< (23 - p)).extractLsb' 0 23

/-- Exponent field 0 of either half format (R93, R110): the detector finds no leading one in a zero,
which passes through as `{s, 31'b0}`, and finds one in a subnormal, which is normalised. -/
def expandSmall (s : Sign) (m : BitVec 10) : Single :=
  match lod10 m with
  | none => s ++ 0#31
  | some p => expandSubnormal s m p

/-- `sig = {1'b1, M}`, the significand with its implicit one restored (R98, R112). -/
def significand (m : BitVec 23) : BitVec 24 := 1#1 ++ m

/-- `mag` of a binary32 normal with fields `E`, `M` (R98, R112): `top` is the first unbiased exponent
beyond the format's range and `clamp` the magnitude that overflow gives, before or after rounding. -/
def encodeMagnitude (top : Int) (clamp : Nat) (e : BitVec 8) (m : BitVec 23) : Nat :=
  let u : Int := (e.toNat : Int) - 127
  let sig := significand m
  if top ≤ u then clamp
  else if -14 ≤ u then min (((u + 14).toNat <<< 10) + roundingUnit sig 13) clamp
  else roundingUnit sig (min (-u - 1) 25).toNat

end Sys2Proof.Machine
end

