-- ==== Sys2Proof/Machine/Bitcast.lean ====
section
/-! DEFINITION. The bitcast_reinterpreter (40_bitcast.md R80 to R85): four operations that hand every bit
of the operand to the same bit of the result. -/

namespace Sys2Proof.Machine

/-- A binary32 bitcast, in either direction: "a raw reinterpretation, not an arithmetic cast" (R80). -/
def bitcastSingle (w : Single) : Single := w

/-- A binary64 bitcast, in either direction (R80); the fields are never examined (R83). -/
def bitcastDouble (d : Port) : Port := d

/-- The `y` of op 0x8 (R81). -/
def bitsToSingleValue (a : Port) : Port := placeSingle (bitcastSingle (singleOperand a))

/-- The `y` of op 0x9 (R82). -/
def singleValueToBits (a : Port) : Port := placeSingle (bitcastSingle (singleOperand a))

/-- The `y` of op 0xA (R83). -/
def bitsToDoubleValue (a : Port) : Port := placeDouble (bitcastDouble (doubleOperand a))

/-- The `y` of op 0xB (R84). -/
def doubleValueToBits (a : Port) : Port := placeDouble (bitcastDouble (doubleOperand a))

/-- `bits_to_single_value` (R81). -/
def execBitsToSingleValue (a : Port) (s : State) : Host.Outcome State Fault Refusal :=
  .next (driveResult (bitsToSingleValue a) s)

/-- `single_value_to_bits` (R82). -/
def execSingleValueToBits (a : Port) (s : State) : Host.Outcome State Fault Refusal :=
  .next (driveResult (singleValueToBits a) s)

/-- `bits_to_double_value` (R83). -/
def execBitsToDoubleValue (a : Port) (s : State) : Host.Outcome State Fault Refusal :=
  .next (driveResult (bitsToDoubleValue a) s)

/-- `double_value_to_bits` (R84). -/
def execDoubleValueToBits (a : Port) (s : State) : Host.Outcome State Fault Refusal :=
  .next (driveResult (doubleValueToBits a) s)

end Sys2Proof.Machine
end

