-- ==== Sys2Proof/Config.lean ====
section
/-! DEFINITION. The implementation parameters of 00_scope.md R8 and the constraints the spec puts on
them. The values this hardware fixes stand in Machine/Params.lean; the codecs take a `Params`
argument, so that a claim may be made for every conforming block (R94, R101, R114). -/

namespace Sys2Proof

/-- The open parameters of 00_scope.md R8. OP_WIDTH, A_WIDTH and Y_WIDTH are the widths of the types
of Word.lean. -/
structure Params where
  /-- LATENCY: cycles from presenting a command to its result (R31, R155). -/
  latency : Nat
  /-- DEC_NAN(s, m): the binary32 pattern that IEEE decode gives for a half NaN (R94). -/
  decNan : Sign → BitVec 10 → Single
  /-- ENC_NAN(S, M): the half pattern that IEEE encode gives for a binary32 NaN (R101). -/
  encNan : Sign → BitVec 23 → Half
  /-- ALT_INF(S): the alt half pattern that alt encode gives for an infinity (R114). -/
  altInf : Sign → Half
  /-- ALT_NAN(S, M): the alt half pattern that alt encode gives for a NaN (R114). -/
  altNan : Sign → BitVec 23 → Half

/-- What every conforming block's parameters satisfy: R94's two bullets for DEC_NAN and R101's three
equations for ENC_NAN, for a nonzero mantissa. R114 asks of ALT_INF and ALT_NAN only that they are
functions of their arguments, and R8 of LATENCY only that it is a natural number. -/
structure Params.Conforming (P : Params) : Prop where
  decNan_exponent : ∀ s m, m ≠ 0#10 → (P.decNan s m).extractLsb' 23 8 = 0xFF#8
  decNan_mantissa : ∀ s m, m ≠ 0#10 → (P.decNan s m).extractLsb' 0 23 ≠ 0#23
  decNan_sign : ∀ s m, m ≠ 0#10 → (P.decNan s m).extractLsb' 31 1 = s
  encNan_sign : ∀ s m, m ≠ 0#23 → (P.encNan s m).extractLsb' 15 1 = s
  encNan_exponent : ∀ s m, m ≠ 0#23 → (P.encNan s m).extractLsb' 10 5 = 0x1F#5
  encNan_mantissa : ∀ s m, m ≠ 0#23 → (P.encNan s m).extractLsb' 0 10 ≠ 0#10

end Sys2Proof
end

