-- ==== Sys2Proof/Machine/Params.lean ====
section
/-! DEFINITION. The values this hardware fixes for the open parameters (00_scope.md R8, the column
"this hardware"; 92_eei_decisions.md D1, D9 to D12). A claim about one of these patterns holds of this
hardware only (DESIGN CHOICE, unsafe for other blocks, log 1). -/

namespace Sys2Proof.Machine

/-- `DEC_NAN(s, m) = {s, 8'hFF, m, 13'b0}` (R94, D9). -/
def hwDecNan (s : Sign) (m : BitVec 10) : Single := s ++ 0xFF#8 ++ m ++ 0#13

/-- `ENC_NAN(S, M) = {S, 15'h7E00}` (R101, D10). -/
def hwEncNan (s : Sign) (_m : BitVec 23) : Half := s ++ 0x7E00#15

/-- `ALT_INF(S) = {S, 15'h7FFF}` (R114, D11). -/
def hwAltInf (s : Sign) : Half := s ++ 0x7FFF#15

/-- `ALT_NAN(S, M) = {S, 15'h7FFF}` (R114, D12). -/
def hwAltNan (s : Sign) (_m : BitVec 23) : Half := s ++ 0x7FFF#15

/-- `LATENCY = 0` (R8, D1). -/
def hwLatency : Nat := 0

/-- The parameters of this hardware (R8). -/
def hardware : Params where
  latency := hwLatency
  decNan := hwDecNan
  encNan := hwEncNan
  altInf := hwAltInf
  altNan := hwAltNan

end Sys2Proof.Machine
end

