-- ==== Sys2Proof/Machine/AltCodec.lean ====
section
/-! DEFINITION. The alternate half codec (42_alt_codec.md R110 to R117): exponent field 31 is an ordinary
normal exponent, so no infinity and no NaN is ever decoded. -/

namespace Sys2Proof.Machine

/-- The binary32 pattern of an alt half (R110). -/
def decodeAlt (h : Half) : Single :=
  let s := halfSign h
  let e := halfExp h
  let m := halfMan h
  if e = 0#5 then expandSmall s m else expandNormal s e m

/-- The alt half pattern of a binary32 (R112): NaN and infinity by the clamp targets of R114, zero and
every binary32 subnormal to a signed zero, and the normals, which clamp to `0x7FFF` from unbiased
exponent 17 on or when rounding carries past exponent field 31 (R113). -/
def encodeAlt (P : Params) (w : Single) : Half :=
  let s := singleSign w
  let e := singleExp w
  let m := singleMan w
  if e = 255#8 then (if m = 0#23 then P.altInf s else P.altNan s m)
  else if e = 0#8 then packHalfMag s 0#15
  else packHalfMag s (BitVec.ofNat 15 (encodeMagnitude 17 0x7FFF e m))

/-- The `y` of op 0x4 (R110). -/
def altHalfToSingleBits (a : Port) : Port := placeSingle (decodeAlt (halfOperand a))

/-- The `y` of op 0x5: `decode_bits` followed by a bitcast (R111, C2). -/
def altHalfToSingleValue (a : Port) : Port := placeSingle (bitcastSingle (decodeAlt (halfOperand a)))

/-- The `y` of op 0x6 (R112, C2). -/
def singleToAltHalfValue (P : Params) (a : Port) : Port := placeHalf (encodeAlt P (singleOperand a))

/-- `alt_half_to_single_bits` (R110). -/
def execAltHalfToSingleBits (a : Port) (s : State) : Host.Outcome State Fault Refusal :=
  .next (driveResult (altHalfToSingleBits a) s)

/-- `alt_half_to_single_value` (R111). -/
def execAltHalfToSingleValue (a : Port) (s : State) : Host.Outcome State Fault Refusal :=
  .next (driveResult (altHalfToSingleValue a) s)

/-- `single_to_alt_half_value` (R112). -/
def execSingleToAltHalfValue (a : Port) (s : State) : Host.Outcome State Fault Refusal :=
  .next (driveResult (singleToAltHalfValue hardware a) s)

end Sys2Proof.Machine
end

