-- ==== Sys2Proof/Machine/IeeeCodec.lean ====
section
/-! DEFINITION. The IEEE half codec (41_ieee_codec.md R90 to R105): decode to binary32 and encode from
it. The codec takes the open parameters; the meanings run it with this hardware's. -/

namespace Sys2Proof.Machine

/-- The binary32 pattern of an IEEE half (R93). Exponent field 0 is a zero or a subnormal, 31 an
infinity or a NaN (R94), any other a normal. -/
def decodeIeee (P : Params) (h : Half) : Single :=
  let s := halfSign h
  let e := halfExp h
  let m := halfMan h
  if e = 0#5 then expandSmall s m
  else if e = 31#5 then (if m = 0#10 then s ++ 0xFF#8 ++ 0#23 else P.decNan s m)
  else expandNormal s e m

/-- The IEEE half pattern of a binary32 (R98): NaN (R101), infinity (R102), zero and every binary32
subnormal (R100), and the normals, which overflow to `0x7C00` from unbiased exponent 16 on or when
rounding reaches exponent field 31 (R99). -/
def encodeIeee (P : Params) (w : Single) : Half :=
  let s := singleSign w
  let e := singleExp w
  let m := singleMan w
  if e = 255#8 then (if m = 0#23 then packHalfMag s 0x7C00#15 else P.encNan s m)
  else if e = 0#8 then packHalfMag s 0#15
  else packHalfMag s (BitVec.ofNat 15 (encodeMagnitude 16 0x7C00 e m))

/-- The `y` of op 0x0 (R93). -/
def ieeeHalfToSingleBits (P : Params) (a : Port) : Port := placeSingle (decodeIeee P (halfOperand a))

/-- The `y` of op 0x1: "same as `decode_bits` composed with a bitcast to a value" (R95, C3). -/
def ieeeHalfToSingleValue (P : Params) (a : Port) : Port :=
  placeSingle (bitcastSingle (decodeIeee P (halfOperand a)))

/-- The `y` of op 0x2 (R98). -/
def singleToIeeeHalfValue (P : Params) (a : Port) : Port := placeHalf (encodeIeee P (singleOperand a))

/-- `ieee_half_to_single_bits` (R93). -/
def execIeeeHalfToSingleBits (a : Port) (s : State) : Host.Outcome State Fault Refusal :=
  .next (driveResult (ieeeHalfToSingleBits hardware a) s)

/-- `ieee_half_to_single_value` (R95). -/
def execIeeeHalfToSingleValue (a : Port) (s : State) : Host.Outcome State Fault Refusal :=
  .next (driveResult (ieeeHalfToSingleValue hardware a) s)

/-- `single_to_ieee_half_value` (R98). -/
def execSingleToIeeeHalfValue (a : Port) (s : State) : Host.Outcome State Fault Refusal :=
  .next (driveResult (singleToIeeeHalfValue hardware a) s)

end Sys2Proof.Machine
end

