-- ==== Sys2Proof/Machine/Dispatch.lean ====
section
/-! DEFINITION. One arm per operation of spec/opcode_table.json, each one call of its meaning. -/

namespace Sys2Proof.Machine

def exec (i : Instr) (s : State) : Host.Outcome State Fault Refusal :=
  match i with
  | .ieeeHalfToSingleBits a => Sys2Proof.Machine.execIeeeHalfToSingleBits a s
  | .ieeeHalfToSingleValue a => Sys2Proof.Machine.execIeeeHalfToSingleValue a s
  | .singleToIeeeHalfValue a => Sys2Proof.Machine.execSingleToIeeeHalfValue a s
  | .altHalfToSingleBits a => Sys2Proof.Machine.execAltHalfToSingleBits a s
  | .altHalfToSingleValue a => Sys2Proof.Machine.execAltHalfToSingleValue a s
  | .singleToAltHalfValue a => Sys2Proof.Machine.execSingleToAltHalfValue a s
  | .bitsToSingleValue a => Sys2Proof.Machine.execBitsToSingleValue a s
  | .singleValueToBits a => Sys2Proof.Machine.execSingleValueToBits a s
  | .bitsToDoubleValue a => Sys2Proof.Machine.execBitsToDoubleValue a s
  | .doubleValueToBits a => Sys2Proof.Machine.execDoubleValueToBits a s

end Sys2Proof.Machine
end

