-- ==== Sys2Proof/Machine/Step.lean ====
section
/-! DEFINITION. One step of the machine: the command on the input ports settles (70_reset_and_hazards.md
R154, "For `LATENCY = 0` a command is one atomic step that produces `Block(op, a)`"). There is no
program counter and no fetch (10_state.md R25, 20_memory.md R50). -/

namespace Sys2Proof.Machine

/-- The presented command is decoded and runs; it stays on the input ports, which the host holds (R32),
so a further step drives the same outputs again (R46). A reserved code is refused (R67, I8); with no
command presented nothing valid can come of a step (DEDUCED, log 5). -/
def step (s : State) : Host.Outcome State Fault Refusal :=
  match s.input with
  | none => .fault .noCommand
  | some c =>
    match decode c with
    | .ok i => exec i s
    | .error (.reservedCode op) => .refused (.reservedCode op)

/-- `s` with the command word `w` (numbered as the opcode table numbers it) on the input ports, from
where the next step takes it (R21, R60; log 4, log 8). As when the host presents a command, what the
outputs showed before is no result of it and may not be read (R151; DEDUCED, safe, log 7). -/
def State.withFetchWord (s : State) (nbits w : Nat) : State :=
  { s with input := tableCommand nbits w, output := none }

end Sys2Proof.Machine
end

