-- ==== Sys2Proof/Machine/Assembler.lean ====
section
/-! DEFINITION. The written syntax of commands and command sequences (30_encoding.md R69, R70), on lists
of characters. Notation only: no result depends on it (D19; DESIGN CHOICE, safe, log 14). -/

namespace Sys2Proof.Machine

/-- The mnemonics of R62, the source's function names. -/
def mnemonic : Operation → List Char
  | .ieeeHalfToSingleBits => "ieee_half_to_single_bits".toList
  | .ieeeHalfToSingleValue => "ieee_half_to_single_value".toList
  | .singleToIeeeHalfValue => "single_to_ieee_half_value".toList
  | .altHalfToSingleBits => "alt_half_to_single_bits".toList
  | .altHalfToSingleValue => "alt_half_to_single_value".toList
  | .singleToAltHalfValue => "single_to_alt_half_value".toList
  | .bitsToSingleValue => "bits_to_single_value".toList
  | .singleValueToBits => "single_value_to_bits".toList
  | .bitsToDoubleValue => "bits_to_double_value".toList
  | .doubleValueToBits => "double_value_to_bits".toList

/-- The ten operations, in the order of R62. -/
def allOperations : List Operation :=
  [.ieeeHalfToSingleBits, .ieeeHalfToSingleValue, .singleToIeeeHalfValue, .altHalfToSingleBits,
   .altHalfToSingleValue, .singleToAltHalfValue, .bitsToSingleValue, .singleValueToBits,
   .bitsToDoubleValue, .doubleValueToBits]

/-- The operation a mnemonic names; there are no pseudo-instructions (R69). -/
def operationNamed (word : List Char) : Option Operation :=
  allOperations.find? fun o => mnemonic o == word

/-- The value of a digit in base `base`, at most 16, capitals or not. -/
def digitValue (base : Nat) (c : Char) : Option Nat :=
  let v := if '0' ≤ c ∧ c ≤ '9' then c.toNat - 48
    else if 'A' ≤ c ∧ c ≤ 'F' then c.toNat - 55
    else if 'a' ≤ c ∧ c ≤ 'f' then c.toNat - 87
    else 16
  if v < base then some v else none

/-- The number that digits write after those read so far (`acc`), the most significant first. -/
def readDigits (base acc : Nat) : List Char → Option Nat
  | [] => some acc
  | c :: cs =>
    match digitValue base c with
    | some v => readDigits base (acc * base + v) cs
    | none => none

/-- A number in base `base` with at least one digit. -/
def readNumber (base : Nat) : List Char → Option Nat
  | [] => none
  | c :: cs => readDigits base 0 (c :: cs)

/-- A hexadecimal literal `0x...` (R69). -/
def readLiteral : List Char → Option Nat
  | '0' :: 'x' :: cs => readNumber 16 cs
  | _ => none

/-- A name `tJ` (R69). -/
def readName : List Char → Option Nat
  | 't' :: cs => readNumber 10 cs
  | _ => none

/-- `<src>`: "either a literal, or an earlier name `tJ`" (R69). -/
def readSrc (word : List Char) : Option Src :=
  match readLiteral word with
  | some v => some (.literal v)
  | none => (readName word).map Src.result

/-- The word read so far, if there is one, before the words after it. -/
def flush (word : List Char) (rest : List (List Char)) : List (List Char) :=
  match word with
  | [] => rest
  | c :: cs => (c :: cs) :: rest

/-- The words of a line, between blanks; a comment starts with `;` (R69). `word` is the one being read. -/
def wordsFrom (word : List Char) : List Char → List (List Char)
  | [] => flush word []
  | c :: cs =>
    if c = ';' then flush word []
    else if c = ' ' then flush word (wordsFrom [] cs)
    else wordsFrom (word ++ [c]) cs

/-- A written command `<mnemonic> <operand>` as its operation and literal, which must fit the operand
width (R69). -/
def readCommand (text : List Char) : Option (Operation × Nat) :=
  match wordsFrom [] text with
  | [m, v] =>
    match operationNamed m, readLiteral v with
    | some o, some n => if n < 2 ^ operandWidth o then some (o, n) else none
    | _, _ => none
  | _ => none

/-- The word `CMD` of a written command (R70). -/
def assemble (text : List Char) : Option Command :=
  match readCommand text with
  | some (o, n) => encodeWritten o n
  | none => none

/-- A line `tK <- <mnemonic> <src>` of a sequence, K being the line's place `k` in it (R69; log 14). -/
def readLine (k : Nat) (text : List Char) : Option Line :=
  match wordsFrom [] text with
  | [t, arrow, m, v] =>
    if readName t = some k ∧ arrow = ['<', '-'] then
      match operationNamed m, readSrc v with
      | some o, some src => if (src.wellFormed o k) then some { op := o, src := src } else none
      | _, _ => none
    else none
  | _ => none

/-- A text line with no word: blank, or a comment alone. -/
def isBlankLine (text : List Char) : Bool := (wordsFrom [] text).isEmpty

/-- The lines of a sequence from line `k` on, "one per line" (R69). A text line that is blank or holds a
comment alone is skipped and counts for no name: R69 says only that comments start with `;` and that
commands stand one per line (DESIGN CHOICE, safe, log 14). -/
def readProgramFrom (k : Nat) : List (List Char) → Option (List Line)
  | [] => some []
  | text :: texts =>
    if isBlankLine text then readProgramFrom k texts
    else match readLine k text, readProgramFrom (k + 1) texts with
      | some l, some ls => some (l :: ls)
      | _, _ => none

/-- A hexadecimal digit, capitals as the spec writes them. -/
def hexDigit (v : Nat) : Char := Char.ofNat (if v < 10 then 48 + v else 55 + v)

/-- The low `n` hexadecimal digits of a number, the most significant first. -/
def hexDigits : Nat → Nat → List Char
  | 0, _ => []
  | n + 1, v => hexDigits n (v / 16) ++ [hexDigit (v % 16)]

/-- The text of a command, its operand with every digit of the operand width (R69). -/
def writeCommand (o : Operation) (v : Nat) : List Char :=
  mnemonic o ++ [' ', '0', 'x'] ++ hexDigits (operandWidth o / 4) v

/-- A command word "written as 17 hexadecimal digits" (R70), without the underscores, which "are for
reading only". -/
def writeWord (c : Command) : List Char := hexDigits 17 c.toNat

end Sys2Proof.Machine
end

