-- ==== Sys2Proof/Machine/Flags.lean ====
section
/-! DEFINITION. The block has no flag and no condition code, the IEEE 754 exception flags included
(10_state.md R26; 60_exceptions.md R131). The one status output is `illegal` (R22), a function of the
current `op` alone that holds nothing. -/

namespace Sys2Proof.Machine

/-- `illegal`: "1 exactly when `op` is a reserved code" (R22, R67). -/
def illegalOutput (op : OpCode) : Bool := (operationOf op).isNone

end Sys2Proof.Machine
end

