-- ==== Sys2Proof/Machine/Block.lean ====
section
/-! DEFINITION. The block as the one function `Block(op, a) = (y, illegal)` of 10_state.md R23, written
from the opcode map (30_encoding.md R62) without the decoder, the machine's state or `exec`: what the
step and a pipelined implementation (R31) are held to, and what an implementation conforms to (R15). -/

namespace Sys2Proof.Machine

/-- Port `y` (R22, R65) by the code on `op` (R62). For a reserved code R67 drives 0; that value "is given
for the implementer, not as a fact a claim may use" (D7), and the step refuses the command (safe, log 6). -/
def blockResult (P : Params) (op : OpCode) (a : Port) : Port :=
  match op with
  | 0x0#4 => ieeeHalfToSingleBits P a
  | 0x1#4 => ieeeHalfToSingleValue P a
  | 0x2#4 => singleToIeeeHalfValue P a
  | 0x4#4 => altHalfToSingleBits a
  | 0x5#4 => altHalfToSingleValue a
  | 0x6#4 => singleToAltHalfValue P a
  | 0x8#4 => bitsToSingleValue a
  | 0x9#4 => singleValueToBits a
  | 0xA#4 => bitsToDoubleValue a
  | 0xB#4 => doubleValueToBits a
  | _ => 0#64

/-- `Block(op, a) = (y, illegal)` (R23), for any parameters. -/
def block (P : Params) (op : OpCode) (a : Port) : Output :=
  { y := blockResult P op a, illegal := illegalOutput op }

/-- The outputs of this hardware for the command word `c` (R60). -/
def blockOf (c : Command) : Output := block hardware (opField c) (aField c)

/-- Whether a command word has one of the ten operation codes (R62), not a reserved one (R67). -/
def isOperation (c : Command) : Bool := (operationOf (opField c)).isSome

end Sys2Proof.Machine
end

