-- ==== Sys2Proof/Machine/Pipeline.lean ====
section
/-! DEFINITION. An implementation with any LATENCY (10_state.md R31; 70_reset_and_hazards.md R150, R151,
R155): a clock, and LATENCY pipeline registers that are not architectural state, so they stand here and
not in `State`. The machine of Step.lean is the reference, LATENCY = 0 (D1). -/

namespace Sys2Proof.Machine

/-- What a presented command leaves in the registers: the outputs of an operation, or the mark of a reserved
code, which a model refuses (R67, D7, I8) and so gives no output value (log 6). -/
inductive Arrival where
  | result (o : Output)
  | reserved (op : OpCode)
deriving DecidableEq, Repr

/-- The arrival a command word produces: `Block(op, a)` of its own inputs (R23, R31), unless its code is
reserved. -/
def arrivalOf (P : Params) (c : Command) : Arrival :=
  if isOperation c then .result (block P (opField c) (aField c)) else .reserved (opField c)

/-- The pipeline registers, newest first: what is in flight, `none` where no command has produced anything
(after power-up, or an edge at which no command was presented). -/
structure Pipe where
  stages : List (Option Arrival)
deriving DecidableEq, Repr

/-- After power-up no register holds the result of a command (R150: "their contents are not
architectural"; DEDUCED, safe, log 12). -/
def Pipe.powerUp (P : Params) : Pipe := { stages := List.replicate P.latency none }

/-- What stands between the inputs at a clock edge and the outputs at that edge, newest first: with no
register the outputs are those of the command presented now, combinationally (R23). -/
def Pipe.inFlight (P : Params) (input : Option Command) (p : Pipe) : List (Option Arrival) :=
  input.map (arrivalOf P) :: p.stages

/-- What has reached the outputs at a clock edge, if a command has. -/
def Pipe.visible (P : Params) (input : Option Command) (p : Pipe) : Option Arrival :=
  ((p.inFlight P input).getLast?).join

/-- One clock edge: everything moves on by one register, and a new command may be accepted (R31). -/
def Pipe.edge (P : Params) (input : Option Command) (p : Pipe) : Pipe :=
  { stages := (p.inFlight P input).dropLast }

/-- The registers after the edges 0 to `t - 1`, `inputs k` being the command presented at edge `k`. -/
def Pipe.after (P : Params) (inputs : Nat → Option Command) : Nat → Pipe
  | 0 => Pipe.powerUp P
  | t + 1 => (Pipe.after P inputs t).edge P (inputs t)

/-- The host samples the outputs at edge `t`: the result of a command; a fault where none has arrived
(R151; log 12); and, as `step` does, a refusal where the command that arrives has a reserved code (R67,
I8). -/
def Pipe.sampleAt (P : Params) (inputs : Nat → Option Command) (t : Nat) :
    Host.Outcome Output Fault Refusal :=
  match (Pipe.after P inputs t).visible P (inputs t) with
  | some (.result o) => .next o
  | some (.reserved op) => .refused (.reservedCode op)
  | none => .fault .resultNotValid

end Sys2Proof.Machine
end

