-- ==== Sys2Proof/Machine/Session.lean ====
section
/-! DEFINITION. The host at work on the machine: its interactions (10_state.md R32), its one duty
(70_reset_and_hazards.md R151, R153), and command sequences whose results it names and forwards
(30_encoding.md R69). What the host keeps is the host's, not state of the block, so it stands here and
not in `State`. -/

namespace Sys2Proof.Machine

/-- Go on with a result, or stop as before. -/
def andThen {α β : Type} (o : Host.Outcome α Fault Refusal) (f : α → Host.Outcome β Fault Refusal) :
    Host.Outcome β Fault Refusal :=
  match o with
  | .next x => f x
  | .fault r => .fault r
  | .refused r => .refused r

/-- What may happen at the ports: the host presents a command, the outputs settle (R151, first bullet),
the host samples them. -/
inductive Move where
  | present (c : Command)
  | settle
  | sample
deriving DecidableEq, Repr

/-- One move; `seen` is what the host has sampled so far, oldest first. -/
def runMove (m : Move) (s : State) (seen : List Output) :
    Host.Outcome (State × List Output) Fault Refusal :=
  match m with
  | .present c => .next (present c s, seen)
  | .settle => andThen (step s) fun s' => .next (s', seen)
  | .sample => andThen (sample s) fun o => .next (s, seen ++ [o])

/-- A list of moves, stopping at the first fault or refusal. -/
def runMoves : List Move → State → List Output → Host.Outcome (State × List Output) Fault Refusal
  | [], s, seen => .next (s, seen)
  | m :: ms, s, seen => andThen (runMove m s seen) fun r => runMoves ms r.1 r.2

/-- What the host knows of the ports: nothing presented, a command presented and not settled, or a
result it may read. -/
inductive PortStatus where
  | idle
  | presented (c : Command)
  | valid (c : Command)
deriving DecidableEq, Repr

/-- A host that keeps to the duty of R151: it lets the outputs settle only with a command presented, and
samples only when they have settled since. -/
def obeys : PortStatus → List Move → Bool
  | _, [] => true
  | _, .present c :: ms => obeys (.presented c) ms
  | .idle, .settle :: _ => false
  | .presented c, .settle :: ms => obeys (.valid c) ms
  | .valid c, .settle :: ms => obeys (.valid c) ms
  | .idle, .sample :: _ => false
  | .presented _, .sample :: _ => false
  | .valid c, .sample :: ms => obeys (.valid c) ms

/-- What such a host must see, by the block function alone: at each sample, the result of the command
then presented. -/
def expectedSamples : PortStatus → List Move → List Output
  | _, [] => []
  | _, .present c :: ms => expectedSamples (.presented c) ms
  | .idle, .settle :: ms => expectedSamples .idle ms
  | .presented c, .settle :: ms => expectedSamples (.valid c) ms
  | .valid c, .settle :: ms => expectedSamples (.valid c) ms
  | .valid c, .sample :: ms => blockOf c :: expectedSamples (.valid c) ms
  | st, .sample :: ms => expectedSamples st ms

/-- No reserved code is presented (R67). -/
def presentsOperationsOnly : List Move → Bool
  | [] => true
  | .present c :: ms => isOperation c && presentsOperationsOnly ms
  | .settle :: ms => presentsOperationsOnly ms
  | .sample :: ms => presentsOperationsOnly ms

/-- One command of a sequence (R32): present, wait until the result is valid, sample. -/
def issue (c : Command) (s : State) : Host.Outcome (State × Output) Fault Refusal :=
  andThen (step (present c s)) fun s' => andThen (sample s') fun o => .next (s', o)

/-- The operand a source stands for (R69): a literal extended with zeros, an earlier `y` unchanged, or
the slice `y[hi:lo]` of one (R32); `results` holds `t0`, `t1`, … in order. -/
def resolve (results : List Port) : Src → Option Port
  | .literal v => some (BitVec.ofNat 64 v)
  | .result j => results[j]?
  | .slice j hi lo => results[j]?.map fun y => (y.extractLsb' lo (hi + 1 - lo)).setWidth 64

/-- The result a source names, for the message of a refusal. -/
def sourceName : Src → Nat
  | .literal _ => 0
  | .result j => j
  | .slice j _ _ => j

/-- The host's work on a command sequence: the machine, and the results it has named. -/
structure Session where
  machine : State
  results : List Port
deriving DecidableEq, Repr

/-- A line `tK <- <mnemonic> <src>` (R69): the host takes the operand from the source, issues the command
and names its `y`. A name with no result yet is refused (DESIGN CHOICE, safe, log 13). -/
def runLine (l : Line) (u : Session) : Host.Outcome Session Fault Refusal :=
  match resolve u.results l.src with
  | none => .refused (.unboundName (sourceName l.src))
  | some a => andThen (issue (encode (l.op.instr a)) u.machine) fun r =>
      .next { machine := r.1, results := u.results ++ [r.2.y] }

/-- A command sequence (R69). -/
def runProgram : List Line → Session → Host.Outcome Session Fault Refusal
  | [], u => .next u
  | l :: ls, u => andThen (runLine l u) fun u' => runProgram ls u'

/-- The results of a sequence by the block function alone, with no machine: `none` where a line names a
result it does not have. -/
def programResults : List Line → List Port → Option (List Port)
  | [], ts => some ts
  | l :: ls, ts =>
    match resolve ts l.src with
    | none => none
    | some a => programResults ls (ts ++ [(block hardware (codeOf l.op) a).y])

end Sys2Proof.Machine
end

