-- ==== Sys2Proof/Machine/Value.lean ====
section
/-! DEFINITION. The numeric value of a pattern (00_scope.md R14), which gives "exactly equal-valued",
"halfway" and "nearest" their meaning. No operation computes it: the rules of the operations work on
bits alone. The formulas are marked general knowledge by R14 itself (PRESUMED, log 9). -/

namespace Sys2Proof.Machine

/-- `(-1)^s`. -/
def signFactor (s : Sign) : ℚ := (-1) ^ s.toNat

/-- The magnitude of a half pattern, bias 15 (R14): subnormal and zero `2^(-14) × (m/1024)`, normal
`2^(e-15) × (1 + m/1024)`. -/
def halfMagnitude (h : Half) : ℚ :=
  if halfExp h = 0#5 then (2 : ℚ) ^ (-14 : ℤ) * ((halfMan h).toNat / 1024)
  else (2 : ℚ) ^ ((halfExp h).toNat - 15 : ℤ) * (1 + (halfMan h).toNat / 1024)

/-- The value of a half pattern (R14): of every alt half pattern, and of an IEEE half pattern that is
zero, subnormal or normal. -/
def halfValue (h : Half) : ℚ := signFactor (halfSign h) * halfMagnitude h

/-- The magnitude of a binary32 pattern, bias 127 (R14): subnormal and zero `2^(-126) × (M/2^23)`, normal
`2^(E-127) × (1 + M/2^23)`. -/
def singleMagnitude (w : Single) : ℚ :=
  if singleExp w = 0#8 then (2 : ℚ) ^ (-126 : ℤ) * ((singleMan w).toNat / 2 ^ 23)
  else (2 : ℚ) ^ ((singleExp w).toNat - 127 : ℤ) * (1 + (singleMan w).toNat / 2 ^ 23)

/-- The value of a binary32 pattern that is zero, subnormal or normal (R14). -/
def singleValue (w : Single) : ℚ := signFactor (singleSign w) * singleMagnitude w

end Sys2Proof.Machine
end

