-- ==== Sys2Proof/Safety.lean ====
section
/-! DEFINITION. What a good state, a conforming implementation and a correctly rounded result are, in the
terms the claims use. -/

namespace Sys2Proof

/-- The invariant of the ports (10_state.md R23, 70_reset_and_hazards.md R151): outputs that may be read
are the block's result for the command on the input ports, which has no reserved code (30_encoding.md
R67). -/
def Machine.State.Inv (s : Machine.State) : Prop :=
  ∀ o, s.output = some o →
    ∃ c, s.input = some c ∧ Machine.isOperation c = true ∧ o = Machine.blockOf c

/-- The reserved codes, as R67 lists them. -/
def reservedCodes : List OpCode := [0x3#4, 0x7#4, 0xC#4, 0xD#4, 0xE#4, 0xF#4]

/-- Instruction `i` completes in state `s` and does this and no more: `out.y <- y; out.illegal <- 0`
(R65), the input ports as they were. -/
def Drives (i : Instr) (s : Machine.State) (y : Port) : Prop :=
  Machine.exec i s = .next { input := s.input, output := some { y := y, illegal := false } }

/-- What the machine answers to command `c`, with its ports as after reset: the outputs it drives, if it
answers with a next state and they may be read. -/
def Machine.answer (c : Command) : Option Machine.Output :=
  match Machine.step (Machine.present c Machine.State.reset) with
  | .next t => t.output
  | _ => none

/-- 00_scope.md R15: an implementation conforms when its outputs equal those the rules give, "for every
operation and every input pattern"; a reserved code is no operation (R67). -/
def Conforms (impl : Command → Option Machine.Output) : Prop :=
  ∀ c, Machine.isOperation c = true → impl c = some (Machine.blockOf c)

/-- A half pattern is finite under the IEEE format (R13). -/
abbrev ieeeFinite (h : Half) : Prop := (Machine.ieeeClass h).isFinite = true

/-- A binary32 pattern is finite (R13). -/
abbrev singleFinite (w : Single) : Prop := (Machine.singleClass w).isFinite = true

/-- `h` is the half pattern among those with `ok` whose value lies nearest to `x`; where another value
lies as near (a tie), the retained mantissa LSB of `h` is 0 (R105, Glossary "Round-to-nearest-even"). -/
def NearestEven (ok : Half → Prop) (x : ℚ) (h : Half) : Prop :=
  ok h ∧ ∀ g, ok g →
    |Machine.halfValue h - x| ≤ |Machine.halfValue g - x| ∧
    (|Machine.halfValue h - x| = |Machine.halfValue g - x| →
      Machine.halfValue g ≠ Machine.halfValue h → h.getLsbD 0 = false)

end Sys2Proof
end

