-- ==== Sys2Proof/Certificates/Slice0/Obligations.lean ====
section
/-! DEFINITION. The statements for the provers, from the numbered rules of spec/. `Drives i s y` (Safety)
says that `exec i s` answers the next state with `y` on the outputs, `illegal` 0 and the inputs as they
were: result, completion and frame at once. -/

open Sys2Proof Sys2Proof.Machine

/-! ## Encoding (30_encoding.md) -/

/-- R62, R70, section L2.7: command words written out from the opcode map, one of every operation, and
two reserved codes. -/
def Obligations.WordsOfTheOpcodeMapDecode : Prop :=
  decodeTableWord 68 0x00000000000003C00 = some (.ieeeHalfToSingleBits 0x3C00#64) ∧
  decodeTableWord 68 0x100000000000003FF = some (.ieeeHalfToSingleValue 0x3FF#64) ∧
  decodeTableWord 68 0x2FFFFFFFF3F800000 = some (.singleToIeeeHalfValue 0xFFFFFFFF3F800000#64) ∧
  decodeTableWord 68 0x4123456789ABC7FFF = some (.altHalfToSingleBits 0x123456789ABC7FFF#64) ∧
  decodeTableWord 68 0x50000000000000400 = some (.altHalfToSingleValue 0x400#64) ∧
  decodeTableWord 68 0x600000001BF800000 = some (.singleToAltHalfValue 0x1BF800000#64) ∧
  decodeTableWord 68 0x800000000501502F9 = some (.bitsToSingleValue 0x501502F9#64) ∧
  decodeTableWord 68 0x9DEADBEEF3F800000 = some (.singleValueToBits 0xDEADBEEF3F800000#64) ∧
  decodeTableWord 68 0xAFFF8000000000001 = some (.bitsToDoubleValue 0xFFF8000000000001#64) ∧
  decodeTableWord 68 0xBFFF8000000000001 = some (.doubleValueToBits 0xFFF8000000000001#64) ∧
  decodeTableWord 68 0x30000000000003C00 = none ∧
  decodeTableWord 68 0xF000000003F800000 = none

/-- R60, R62: no bit of a command is dropped. -/
def Obligations.DecodeOfEncodeIsTheInstruction : Prop :=
  ∀ i : Instr, decode (encode i) = .ok i

/-- R60, R62: a word that decodes has one meaning only, so encoding gives it back. -/
def Obligations.EncodeOfDecodeIsTheWord : Prop :=
  ∀ (c : Command) (i : Instr), decode c = .ok i → encode i = c

/-- R61: the decoder reads `op` only, and each of its sixteen values selects exactly one row of R62: one
operation, whatever `a`, or "reserved", whatever `a`. -/
def Obligations.EveryCodeSelectsExactlyOneRow : Prop :=
  ∀ op : OpCode,
    (op ∉ reservedCodes ∧ ∃ o, codeOf o = op ∧ (∀ o', codeOf o' = op → o' = o) ∧
      ∀ a, decode (makeCommand op a) = .ok (o.instr a)) ∨
    (op ∈ reservedCodes ∧ (∀ o, codeOf o ≠ op) ∧
      ∀ a, decode (makeCommand op a) = .error (.reservedCode op))

/-- R63: the decoder that looks at the structure of the codes agrees with the map of R62. -/
def Obligations.CodeStructureAgreesWithTheMap : Prop :=
  ∀ op : OpCode, structuredOperation op = operationOf op

/-- R69, R70: the text of a command, its operand of the operand's width, is read back as that command,
and its word is `{op, zext_64(<operand>)}`. -/
def Obligations.WrittenCommandIsReadBackAndEncoded : Prop :=
  ∀ (o : Operation) (v : Nat), v < 2 ^ operandWidth o →
    readCommand (writeCommand o v) = some (o, v) ∧
    assemble (writeCommand o v) = some (makeCommand (codeOf o) (BitVec.ofNat 64 v)) ∧
    (o.instr (BitVec.ofNat 64 v)).wellFormed = true

/-! ## The step and the ports (10_state.md, 20_memory.md, 60_exceptions.md, 70_reset_and_hazards.md) -/

/-- R154: the presented command is decoded and runs; nothing is added around it. -/
def Obligations.StepRunsTheDecodedCommand : Prop :=
  ∀ (s : State) (c : Command) (i : Instr),
    s.input = some c → decode c = .ok i → step s = exec i s

/-- The next step after a word is placed runs exactly the instruction that word encodes. -/
def Obligations.PlacedWordIsTheNextToRun : Prop :=
  ∀ (s : State) (i : Instr),
    step (s.withFetchWord 68 (encode i).toNat) = exec i (s.withFetchWord 68 (encode i).toNat)

/-- R23, R154: the step drives `Block(op, a)` of the presented command, for every one of the ten
operations and every operand, and holds the inputs. -/
def Obligations.StepDrivesTheBlockFunction : Prop :=
  ∀ (s : State) (c : Command), s.input = some c → isOperation c = true →
    step s = .next { input := some c, output := some (block hardware (opField c) (aField c)) }

/-- R15: the machine conforms. -/
def Obligations.TheMachineConforms : Prop := Conforms answer

/-- R130: no operation raises an exception, for any operand, from any state; and (R24 to R29) all it
changes is the outputs, with `illegal` 0. -/
def Obligations.NoOperationRaisesAnException : Prop :=
  ∀ (i : Instr) (s : State), ∃ y, Drives i s y

/-- R67 as a model takes it (I8, D7): a presented reserved code is refused by its name, and nothing but a
reserved code is. Log 6. -/
def Obligations.StepRefusesExactlyTheReservedCodes : Prop :=
  ∀ (s : State) (c : Command), s.input = some c →
    (opField c ∈ reservedCodes → step s = .refused (.reservedCode (opField c))) ∧
    (opField c ∉ reservedCodes → ∃ t, step s = .next t)

/-- Log 5: a step stops by a fault exactly when no command is presented, the model's own convention. -/
def Obligations.StepFaultsExactlyWithoutACommand : Prop :=
  ∀ (s : State) (r : Fault), step s = .fault r ↔ (s.input = none ∧ r = .noCommand)

/-- R22: `illegal` is 1 exactly for a reserved code, and `y` is extended with zeros from the result
width of the operation, for every conforming block's parameters. -/
def Obligations.OutputPortsShowResultAndIllegal : Prop :=
  ∀ (P : Params) (op : OpCode) (a : Port),
    ((block P op a).illegal = true ↔ op ∈ reservedCodes) ∧
    ∀ o, codeOf o = op → (block P op a).y.toNat < 2 ^ resultWidth o

/-- R64: each operation reads the low slice of `a` the table gives and ignores the bits above it. -/
def Obligations.OperandBitsAboveTheWidthAreIgnored : Prop :=
  ∀ (o : Operation) (n : Nat),
    (o, n) ∈ [(Operation.ieeeHalfToSingleBits, 16), (.ieeeHalfToSingleValue, 16),
      (.altHalfToSingleBits, 16), (.altHalfToSingleValue, 16), (.singleToIeeeHalfValue, 32),
      (.singleToAltHalfValue, 32), (.bitsToSingleValue, 32), (.singleValueToBits, 32),
      (.bitsToDoubleValue, 64), (.doubleValueToBits, 64)] →
    ∀ (a a' : Port), (∀ k, k < n → a.getLsbD k = a'.getLsbD k) →
      (∀ s, exec (o.instr a) s = exec (o.instr a') s) ∧
      ∀ P, block P (codeOf o) a = block P (codeOf o) a'

/-- R65: the result of each operation stands in the low bits of `y` that the table of R45 gives, the
bits above are 0, and `illegal` is 0. -/
def Obligations.ResultBitsAboveTheWidthAreZero : Prop :=
  ∀ (o : Operation) (n : Nat),
    (o, n) ∈ [(Operation.ieeeHalfToSingleBits, 32), (.ieeeHalfToSingleValue, 32),
      (.altHalfToSingleBits, 32), (.altHalfToSingleValue, 32), (.singleToIeeeHalfValue, 16),
      (.singleToAltHalfValue, 16), (.bitsToSingleValue, 32), (.singleValueToBits, 32),
      (.bitsToDoubleValue, 64), (.doubleValueToBits, 64)] →
    ∀ (a : Port) (s : State), ∃ y, Drives (o.instr a) s y ∧ ∀ k, n ≤ k → y.getLsbD k = false

/-- R66, R95, R111, C3: the value form of a decode gives, bit for bit, the `y` of the bits form, NaNs
included. -/
def Obligations.ValueFormsGiveTheBitsForms : Prop :=
  ∀ (a : Port) (s : State),
    exec (.ieeeHalfToSingleValue a) s = exec (.ieeeHalfToSingleBits a) s ∧
    exec (.altHalfToSingleValue a) s = exec (.altHalfToSingleBits a) s

/-- R33, R47: a command's result does not depend on what ran before it, whatever the outputs then
showed. -/
def Obligations.ResultsDoNotDependOnEarlierCommands : Prop :=
  ∀ (s s' : State), s.input = s'.input → step s = step s'

/-- R46: a step produces the whole result of the whole command (atomicity), changes nothing but the
outputs (no side effects), and presenting the same command again gives the same outputs (idempotency). -/
def Obligations.StepIsAtomicAndIdempotent : Prop :=
  ∀ (s t : State), step s = .next t →
    (∃ c, s.input = some c ∧ t = { input := some c, output := some (blockOf c) }) ∧
    step t = .next t

/-- Every step keeps the invariant of the ports: what may be read is the result of the presented
command (R23, R151). -/
def Obligations.StepKeepsThePortsInvariant : Prop :=
  ∀ (s t : State), s.Inv → step s = .next t → t.Inv

/-- R150, R151: after reset no command is presented and no result may be read, and the invariant of the
ports holds. Log 4. -/
def Obligations.ResetShowsNoResult : Prop :=
  State.reset.input = none ∧ State.reset.output = none ∧ State.reset.Inv

/-- R32, R151: no move of the host breaks the invariant of the ports, and what it samples is the block's
result for the command then presented. -/
def Obligations.HostMovesKeepThePortsInvariant : Prop :=
  ∀ (m : Move) (s t : State) (seen seen' : List Output), s.Inv → runMove m s seen = .next (t, seen') →
    t.Inv ∧ (m = .sample → ∃ c, s.input = some c ∧ seen' = seen ++ [blockOf c])

/-- R151: a read of the outputs before the result is valid is a fault, before the first command, after a
new command and, with LATENCY > 0, before the LATENCY-th edge; once the outputs have settled it gives
the result. That one step stands for the settling time, and that presenting any command, the same one
too, makes the outputs invalid, is the model's reading (DEDUCED, log 7); so are an empty pipeline after
power-up (log 12) and a state right after reset that presents nothing (log 4). -/
def Obligations.OnlyValidResultsAreRead : Prop :=
  sample State.reset = .fault .resultNotValid ∧
  (∀ (s : State) (c : Command), sample (present c s) = .fault .resultNotValid) ∧
  (∀ (s : State) (nbits w : Nat), sample (s.withFetchWord nbits w) = .fault .resultNotValid) ∧
  (∀ (s : State) (c : Command), isOperation c = true →
    ∃ t, step (present c s) = .next t ∧ sample t = .next (blockOf c)) ∧
  (∀ (P : Params) (inputs : Nat → Option Command) (t : Nat), t < P.latency →
    Pipe.sampleAt P inputs t = .fault .resultNotValid) ∧
  (∀ (P : Params) (inputs : Nat → Option Command) (c : Command), inputs 0 = some c →
    isOperation c = true →
    Pipe.sampleAt P inputs P.latency = .next (block P (opField c) (aField c)))

/-- R32, R151, R153: a host that waits for each result before it reads it, and presents no reserved code,
meets no fault and no refusal, and reads exactly the block's result for each command, whatever the
state it starts from. -/
def Obligations.ObedientHostReadsBlockResults : Prop :=
  ∀ (ms : List Move), obeys .idle ms = true → presentsOperationsOnly ms = true →
    ∀ (s : State) (seen : List Output),
      ∃ t, runMoves ms s seen = .next (t, seen ++ expectedSamples .idle ms)

/-- R31: with any LATENCY a command presented at clock edge t shows its result, `Block(op, a)` of its own
inputs, at edge t + LATENCY; a command may be accepted at every edge, no result depends on any other
command, and the host cannot read what the outputs show before the first result can arrive. -/
def Obligations.PipelineDeliversAfterLatency : Prop :=
  (∀ (P : Params) (inputs : Nat → Option Command) (t : Nat) (c : Command),
    inputs t = some c → isOperation c = true →
    Pipe.sampleAt P inputs (t + P.latency) = .next (block P (opField c) (aField c))) ∧
  (∀ (P : Params) (inputs : Nat → Option Command) (t : Nat), t < P.latency →
    ∀ o, Pipe.sampleAt P inputs t ≠ .next o)

/-- An edge that brings no result to the outputs: one at which no command was presented samples as a fault
(the model's reading, DEDUCED, log 12), and one at which a reserved code was presented as a refusal
(R67, D7, I8; log 6). -/
def Obligations.PipelineGivesNoValueWithoutAnOperation : Prop :=
  ∀ (P : Params) (inputs : Nat → Option Command) (t : Nat),
    (inputs t = none → Pipe.sampleAt P inputs (t + P.latency) = .fault .resultNotValid) ∧
    (∀ c, inputs t = some c → opField c ∈ reservedCodes →
      Pipe.sampleAt P inputs (t + P.latency) = .refused (.reservedCode (opField c)))

/-- R154, R31: the atomic step and a pipeline of any LATENCY give a host that waits for its result the same
answer for every command, whatever stands before and after it in the stream: the same outputs for an
operation, the same refusal for a reserved code. -/
def Obligations.PipelineAgreesWithTheAtomicStep : Prop :=
  ∀ (latency : Nat) (inputs : Nat → Option Command) (t : Nat) (c : Command) (s : State),
    inputs t = some c →
    Pipe.sampleAt { hardware with latency := latency } inputs (t + latency) =
      andThen (step (present c s)) sample

/-- R69, R32, R153: a well-formed command sequence runs to its end from any state, and its results are
those the block function gives when each operand is a literal, an earlier result or a slice of one. That
the names count the lines and that a slice is extended with zeros is the model's choice (DESIGN CHOICE,
log 13). -/
def Obligations.WrittenSequencesRunToBlockResults : Prop :=
  ∀ (ls : List Line) (s : State), wellFormedProgram ls = true →
    ∃ ts t, programResults ls [] = some ts ∧ ts.length = ls.length ∧
      runProgram ls { machine := s, results := [] } = .next { machine := t, results := ts }

/-! ## Parameters (00_scope.md R8) -/

/-- R8, R94, R101, R114: this hardware's parameters, and that they are those of a conforming block. -/
def Obligations.HardwareParametersConform : Prop :=
  hardware.Conforming ∧ hardware.latency = 0 ∧
  (∀ s m, hardware.decNan s m = packSingle s 0xFF#8 (m ++ 0#13)) ∧
  (∀ s m, hardware.encNan s m = packHalfMag s 0x7E00#15) ∧
  (∀ s, hardware.altInf s = packHalfMag s 0x7FFF#15) ∧
  (∀ s m, hardware.altNan s m = packHalfMag s 0x7FFF#15)

/-! ## bitcast_reinterpreter (40_bitcast.md) -/

/-- R80 to R84: a bitcast puts bit i of its operand on bit i of the result, for every bit of the operand
width, and zeros above; nothing is quieted, flushed or converted. -/
def Obligations.BitcastsKeepEveryBit : Prop :=
  ∀ (o : Operation) (n : Nat),
    (o, n) ∈ [(Operation.bitsToSingleValue, 32), (.singleValueToBits, 32),
      (.bitsToDoubleValue, 64), (.doubleValueToBits, 64)] →
    ∀ (a : Port) (s : State), ∃ y, Drives (o.instr a) s y ∧
      ∀ k, y.getLsbD k = (decide (k < n) && a.getLsbD k)

/-- R85: a bitcast to a value and back gives the pattern, for both widths, NaN patterns included. -/
def Obligations.BitcastRoundTripsAreTheIdentity : Prop :=
  (∀ (b : Single) (s : State), ∃ t y, exec (.bitsToSingleValue (placeSingle b)) s = .next t ∧
    t.output = some { y := y, illegal := false } ∧ Drives (.singleValueToBits y) t (placeSingle b)) ∧
  (∀ (d : Port) (s : State), ∃ t y, exec (.bitsToDoubleValue d) s = .next t ∧
    t.output = some { y := y, illegal := false } ∧ Drives (.doubleValueToBits y) t d)

/-! ## IEEE decode (41_ieee_codec.md) -/

/-- R92 to R95: each case of IEEE decode, by the fields of the half; a subnormal is normalised about its
leading one (R92), a NaN gives this hardware's DEC_NAN (R94); the value form the same (R95). -/
def Obligations.IeeeDecodeFollowsItsCases : Prop :=
  ∀ (a : Port) (s : State), ∃ w : Single,
    Drives (.ieeeHalfToSingleBits a) s (placeSingle w) ∧
    Drives (.ieeeHalfToSingleValue a) s (placeSingle w) ∧
    let h := halfOperand a
    (halfExp h = 0#5 → halfMan h = 0#10 → w = packSingle (halfSign h) 0#8 0#23) ∧
    (halfExp h = 0#5 → ∀ p, p ≤ 9 → (halfMan h).getLsbD p = true →
      (∀ j, p < j → (halfMan h).getLsbD j = false) →
      w = packSingle (halfSign h) (BitVec.ofNat 8 (p + 103))
        (BitVec.ofNat 23 ((halfMan h).toNat * 2 ^ (23 - p)))) ∧
    (halfExp h = 31#5 → halfMan h = 0#10 → w = packSingle (halfSign h) 0xFF#8 0#23) ∧
    (halfExp h = 31#5 → halfMan h ≠ 0#10 → w = packSingle (halfSign h) 0xFF#8 (halfMan h ++ 0#13)) ∧
    (1 ≤ (halfExp h).toNat → (halfExp h).toNat ≤ 30 →
      w = packSingle (halfSign h) (BitVec.ofNat 8 ((halfExp h).toNat + 112)) (halfMan h ++ 0#13))

/-- R91: IEEE decode is exact: same sign, same value for every finite half (a zero, a subnormal or a
normal), infinity to infinity, NaN to NaN. -/
def Obligations.IeeeDecodeIsExact : Prop :=
  ∀ (a : Port) (s : State), ∃ w : Single,
    Drives (.ieeeHalfToSingleBits a) s (placeSingle w) ∧
    singleSign w = halfSign (halfOperand a) ∧
    (ieeeFinite (halfOperand a) → singleFinite w ∧ singleValue w = halfValue (halfOperand a)) ∧
    (ieeeClass (halfOperand a) = .infinity → singleClass w = .infinity) ∧
    (ieeeClass (halfOperand a) = .nan → singleClass w = .nan)

/-- R94: the decode of a half NaN is a NaN of the same sign in every conforming block, and on this
hardware it is `{s, 8'hFF, m, 13'b0}`. -/
def Obligations.IeeeDecodeKeepsNanAndSign : Prop :=
  (∀ (P : Params) (h : Half), P.Conforming → ieeeClass h = .nan →
    singleClass (decodeIeee P h) = .nan ∧ singleSign (decodeIeee P h) = halfSign h) ∧
  (∀ (a : Port) (s : State), ieeeClass (halfOperand a) = .nan →
    Drives (.ieeeHalfToSingleBits a) s (placeSingle
      (packSingle (halfSign (halfOperand a)) 0xFF#8 (halfMan (halfOperand a) ++ 0#13))))

/-- R104: IEEE decode is strictly monotone on the finite non-negative half patterns. -/
def Obligations.IeeeDecodeIsStrictlyMonotone : Prop :=
  ∀ (h₁ h₂ : Half) (s : State), halfSign h₁ = 0#1 → halfSign h₂ = 0#1 → ieeeFinite h₁ → ieeeFinite h₂ →
    h₁.toNat < h₂.toNat →
    ∃ w₁ w₂ : Single, Drives (.ieeeHalfToSingleValue (placeHalf h₁)) s (placeSingle w₁) ∧
      Drives (.ieeeHalfToSingleValue (placeHalf h₂)) s (placeSingle w₂) ∧
      singleValue w₁ < singleValue w₂

/-! ## The rounding unit (41_ieee_codec.md R96, R97) -/

/-- R96: `RU(sig, n)` is `sig / 2^n` rounded to nearest, ties to even, by the kept part q, the guard bit
and the sticky bit: down without guard, up with guard and sticky, and a tie up only from an odd q. -/
def Obligations.RoundingUnitRoundsToNearestEven : Prop :=
  ∀ (sig : BitVec 24) (n : Nat), 13 ≤ n → n ≤ 25 →
    let r := roundingUnit sig n
    let q := sig.toNat / 2 ^ n
    let g := sig.toNat.testBit (n - 1)
    let st := sig.toNat % 2 ^ (n - 1)
    (2 * sig.toNat ≤ 2 * r * 2 ^ n + 2 ^ n ∧ 2 * r * 2 ^ n ≤ 2 * sig.toNat + 2 ^ n) ∧
    (2 * sig.toNat = 2 * r * 2 ^ n + 2 ^ n ∨ 2 * r * 2 ^ n = 2 * sig.toNat + 2 ^ n → r % 2 = 0) ∧
    (g = false → r = q) ∧ (g = true → st ≠ 0 → r = q + 1) ∧ (g = true → st = 0 → r = q + q % 2)

/-- R97: the range of `RU` and its carry, and what the encodes make of the carry: in the normal path it
adds one to the exponent field, in the subnormal path it is the smallest normal `0x0400`. -/
def Obligations.RoundingUnitRangeAndCarry : Prop :=
  (∀ (sig : BitVec 24) (n : Nat), 13 ≤ n → n ≤ 25 →
    ruKept sig n * 2 ^ n < 2 ^ 24 ∧ roundingUnit sig n * 2 ^ n ≤ 2 ^ 24 ∧
    (roundingUnit sig n * 2 ^ n = 2 ^ 24 ↔
      (ruKept sig n + 1) * 2 ^ n = 2 ^ 24 ∧ ruIncrement sig n = true) ∧
    (n = 13 → sig.getLsbD 23 = true → 1024 ≤ roundingUnit sig n ∧ roundingUnit sig n ≤ 2048) ∧
    (14 ≤ n → roundingUnit sig n ≤ 1024)) ∧
  (∀ (P : Params) (w : Single), 113 ≤ (singleExp w).toNat → (singleExp w).toNat ≤ 142 →
    roundingUnit (significand (singleMan w)) 13 = 2048 →
    encodeIeee P w = packHalf (singleSign w) (BitVec.ofNat 5 ((singleExp w).toNat - 111)) 0#10 ∧
    encodeAlt P w = packHalf (singleSign w) (BitVec.ofNat 5 ((singleExp w).toNat - 111)) 0#10) ∧
  (∀ (P : Params) (w : Single), 1 ≤ (singleExp w).toNat → (singleExp w).toNat ≤ 112 →
    roundingUnit (significand (singleMan w)) (min (126 - (singleExp w).toNat) 25) = 1024 →
    encodeIeee P w = packHalfMag (singleSign w) 0x0400#15 ∧
    encodeAlt P w = packHalfMag (singleSign w) 0x0400#15)

/-! ## IEEE encode (41_ieee_codec.md) -/

/-- R98: each case of IEEE encode by the exponent field E (u = E - 127): NaN by this hardware's ENC_NAN,
infinity, zero and binary32 subnormals, overflow (u >= 16), the normal range (-14 <= u <= 15) and the
subnormal range (u <= -15). -/
def Obligations.IeeeEncodeFollowsItsCases : Prop :=
  ∀ (a : Port) (s : State), ∃ h : Half, Drives (.singleToIeeeHalfValue a) s (placeHalf h) ∧
    let w := singleOperand a
    let E := (singleExp w).toNat
    let sig := significand (singleMan w)
    (E = 255 → singleMan w ≠ 0#23 → h = packHalfMag (singleSign w) 0x7E00#15) ∧
    (E = 255 → singleMan w = 0#23 → h = packHalfMag (singleSign w) 0x7C00#15) ∧
    (E = 0 → h = packHalfMag (singleSign w) 0#15) ∧
    (143 ≤ E → E ≤ 254 → h = packHalfMag (singleSign w) 0x7C00#15) ∧
    (113 ≤ E → E ≤ 142 → h = packHalfMag (singleSign w)
      (BitVec.ofNat 15 (min ((E - 113) * 1024 + roundingUnit sig 13) 0x7C00))) ∧
    (1 ≤ E → E ≤ 112 → h = packHalfMag (singleSign w)
      (BitVec.ofNat 15 (roundingUnit sig (min (126 - E) 25))))

/-- R98's rounding by the unit of R96, R105's ties: a finite binary32 below the overflow threshold 65520 (R99) encodes to the nearest
finite IEEE half, ties to the even candidate, sign copied. -/
def Obligations.IeeeEncodeRoundsToNearestEven : Prop :=
  ∀ (a : Port) (s : State), singleFinite (singleOperand a) → |singleValue (singleOperand a)| < 65520 →
    ∃ h : Half, Drives (.singleToIeeeHalfValue a) s (placeHalf h) ∧
      halfSign h = singleSign (singleOperand a) ∧
      NearestEven ieeeFinite (singleValue (singleOperand a)) h

/-- R99: every finite |x| >= 65520 saturates to infinity of the same sign, and every finite |x| below it
gives a finite half. -/
def Obligations.IeeeEncodeSaturatesFrom65520 : Prop :=
  ∀ (a : Port) (s : State), singleFinite (singleOperand a) →
    ∃ h : Half, Drives (.singleToIeeeHalfValue a) s (placeHalf h) ∧
      (65520 ≤ |singleValue (singleOperand a)| →
        h = packHalfMag (singleSign (singleOperand a)) 0x7C00#15) ∧
      (|singleValue (singleOperand a)| < 65520 → ieeeFinite h)

/-- R100, C1, C4, and R112 for alt: below 2^-14 both encodes give the signed count |x| / 2^-24 rounded to
nearest even, which is 0 up to 2^-25, 1 from there to 1.5 × 2^-24, and the smallest normal `0x0400`
from 1023.5 × 2^-24 on; every binary32 subnormal gives a signed zero. -/
def Obligations.UnderflowGivesTheRoundedCount : Prop :=
  ∀ (a : Port) (s : State),
    let w := singleOperand a
    let x := |singleValue w|
    singleFinite w → x < (2 : ℚ) ^ (-14 : ℤ) →
    ∃ k : Nat, k ≤ 0x0400 ∧
      Drives (.singleToIeeeHalfValue a) s (placeHalf (packHalfMag (singleSign w) (BitVec.ofNat 15 k))) ∧
      Drives (.singleToAltHalfValue a) s (placeHalf (packHalfMag (singleSign w) (BitVec.ofNat 15 k))) ∧
      |(k : ℚ) - x * 2 ^ 24| ≤ 1 / 2 ∧ (|(k : ℚ) - x * 2 ^ 24| = 1 / 2 → k % 2 = 0) ∧
      (x ≤ (2 : ℚ) ^ (-25 : ℤ) → k = 0) ∧
      ((2 : ℚ) ^ (-25 : ℤ) < x → x < 3 / 2 * (2 : ℚ) ^ (-24 : ℤ) → k = 1) ∧
      ((2047 : ℚ) / 2 * (2 : ℚ) ^ (-24 : ℤ) ≤ x → k = 0x0400) ∧
      (singleClass w = .subnormal → k = 0)

/-- R101, R102: a binary32 NaN encodes to a half NaN of the same sign, on this hardware `{S, 15'h7E00}`
and for every conforming block; an infinity to the infinity of the same sign. -/
def Obligations.IeeeEncodeKeepsNanAndInfinity : Prop :=
  (∀ (a : Port) (s : State), singleClass (singleOperand a) = .nan →
    Drives (.singleToIeeeHalfValue a) s
      (placeHalf (packHalfMag (singleSign (singleOperand a)) 0x7E00#15))) ∧
  (∀ (a : Port) (s : State), singleClass (singleOperand a) = .infinity →
    Drives (.singleToIeeeHalfValue a) s
      (placeHalf (packHalfMag (singleSign (singleOperand a)) 0x7C00#15))) ∧
  (∀ (P : Params) (w : Single), P.Conforming → singleClass w = .nan →
    ieeeClass (encodeIeee P w) = .nan ∧ halfSign (encodeIeee P w) = singleSign w)

/-- R103: decoding an IEEE half and encoding the result gives the half back, zeros and infinities
included; a NaN comes back as `{s, 15'h7E00}` on this hardware, and for every conforming block as a NaN
of the same sign. -/
def Obligations.IeeeRoundTripIsTheIdentity : Prop :=
  (∀ (h : Half) (s : State), ∃ t y, exec (.ieeeHalfToSingleValue (placeHalf h)) s = .next t ∧
    t.output = some { y := y, illegal := false } ∧
    (ieeeClass h ≠ .nan → Drives (.singleToIeeeHalfValue y) t (placeHalf h)) ∧
    (ieeeClass h = .nan →
      Drives (.singleToIeeeHalfValue y) t (placeHalf (packHalfMag (halfSign h) 0x7E00#15)))) ∧
  (∀ (P : Params) (h : Half), P.Conforming → ieeeClass h = .nan →
    ieeeClass (encodeIeee P (decodeIeee P h)) = .nan ∧
    halfSign (encodeIeee P (decodeIeee P h)) = halfSign h)

/-! ## Alternate half codec (42_alt_codec.md) -/

/-- R110, R111: each case of alt decode, by the fields of the half; exponent field 31 is an ordinary
normal exponent; the value form the same. -/
def Obligations.AltDecodeFollowsItsCases : Prop :=
  ∀ (a : Port) (s : State), ∃ w : Single,
    Drives (.altHalfToSingleBits a) s (placeSingle w) ∧
    Drives (.altHalfToSingleValue a) s (placeSingle w) ∧
    let h := halfOperand a
    (halfExp h = 0#5 → halfMan h = 0#10 → w = packSingle (halfSign h) 0#8 0#23) ∧
    (halfExp h = 0#5 → ∀ p, p ≤ 9 → (halfMan h).getLsbD p = true →
      (∀ j, p < j → (halfMan h).getLsbD j = false) →
      w = packSingle (halfSign h) (BitVec.ofNat 8 (p + 103))
        (BitVec.ofNat 23 ((halfMan h).toNat * 2 ^ (23 - p)))) ∧
    (1 ≤ (halfExp h).toNat →
      w = packSingle (halfSign h) (BitVec.ofNat 8 ((halfExp h).toNat + 112)) (halfMan h ++ 0#13))

/-- R110, R14: alt decode is exact for every one of the 65536 patterns, and its result is always finite, never an infinity or a NaN. -/
def Obligations.AltDecodeIsExact : Prop :=
  ∀ (a : Port) (s : State), ∃ w : Single,
    Drives (.altHalfToSingleBits a) s (placeSingle w) ∧
    singleSign w = halfSign (halfOperand a) ∧ singleFinite w ∧
    singleValue w = halfValue (halfOperand a)

/-- R116: the patterns with exponent field 31 (`0x7C00` to `0x7FFF` and `0xFC00` to `0xFFFF`) decode to
finite normals under alt decode, and every other pattern decodes alike under both formats. -/
def Obligations.AltDivergesOnlyAtExponent31 : Prop :=
  ∀ (h : Half) (s : State),
    ((0x7C00 ≤ h.toNat ∧ h.toNat ≤ 0x7FFF ∨ 0xFC00 ≤ h.toNat) →
      ∃ w : Single, Drives (.altHalfToSingleBits (placeHalf h)) s (placeSingle w) ∧
        singleClass w = .normal) ∧
    (¬ (0x7C00 ≤ h.toNat ∧ h.toNat ≤ 0x7FFF ∨ 0xFC00 ≤ h.toNat) →
      exec (.altHalfToSingleBits (placeHalf h)) s = exec (.ieeeHalfToSingleBits (placeHalf h)) s)

/-- R112: each case of alt encode by the exponent field E (u = E - 127), as R98 but for the clamps: beyond
exponent field 31 (u >= 17), a carry past it, and this hardware's ALT_INF and ALT_NAN. -/
def Obligations.AltEncodeFollowsItsCases : Prop :=
  ∀ (a : Port) (s : State), ∃ h : Half, Drives (.singleToAltHalfValue a) s (placeHalf h) ∧
    let w := singleOperand a
    let E := (singleExp w).toNat
    let sig := significand (singleMan w)
    (E = 255 → h = packHalfMag (singleSign w) 0x7FFF#15) ∧
    (E = 0 → h = packHalfMag (singleSign w) 0#15) ∧
    (144 ≤ E → E ≤ 254 → h = packHalfMag (singleSign w) 0x7FFF#15) ∧
    (113 ≤ E → E ≤ 143 → h = packHalfMag (singleSign w)
      (BitVec.ofNat 15 (min ((E - 113) * 1024 + roundingUnit sig 13) 0x7FFF))) ∧
    (1 ≤ E → E ≤ 112 → h = packHalfMag (singleSign w)
      (BitVec.ofNat 15 (roundingUnit sig (min (126 - E) 25))))

/-- R113: every finite |x| >= 131040 clamps to the largest finite magnitude with the sign kept, and every
finite |x| below it encodes to the nearest alt half, ties to even, sign copied. The clamp of the band
131040 <= |x| < 2^17 is R113's own reading of the source (D13, N6). -/
def Obligations.AltEncodeClampsAndRounds : Prop :=
  ∀ (a : Port) (s : State), singleFinite (singleOperand a) →
    ∃ h : Half, Drives (.singleToAltHalfValue a) s (placeHalf h) ∧
      halfSign h = singleSign (singleOperand a) ∧
      (131040 ≤ |singleValue (singleOperand a)| →
        h = packHalfMag (singleSign (singleOperand a)) 0x7FFF#15) ∧
      (|singleValue (singleOperand a)| < 131040 →
        NearestEven (fun _ => True) (singleValue (singleOperand a)) h)

/-- R114: alt encode of an infinity and of a NaN: `{S, 15'h7FFF}` on this hardware, and for any parameters
the fixed functions ALT_INF(S) and ALT_NAN(S, M). -/
def Obligations.AltEncodeOfInfinityAndNan : Prop :=
  (∀ (a : Port) (s : State),
    singleClass (singleOperand a) = .infinity ∨ singleClass (singleOperand a) = .nan →
    Drives (.singleToAltHalfValue a) s
      (placeHalf (packHalfMag (singleSign (singleOperand a)) 0x7FFF#15))) ∧
  (∀ (P : Params) (w : Single),
    (singleClass w = .infinity → encodeAlt P w = P.altInf (singleSign w)) ∧
    (singleClass w = .nan → encodeAlt P w = P.altNan (singleSign w) (singleMan w)))

/-- R115: decoding an alt half and encoding the result gives the half back, for all 65536 patterns. -/
def Obligations.AltRoundTripIsTheIdentity : Prop :=
  ∀ (h : Half) (s : State), ∃ t y, exec (.altHalfToSingleValue (placeHalf h)) s = .next t ∧
    t.output = some { y := y, illegal := false } ∧ Drives (.singleToAltHalfValue y) t (placeHalf h)

/-- R117: the range of the alt format: no magnitude above that of `0x7FFF`, 131008; the smallest normal
`0x0400` is 2^-14 and the smallest subnormal `0x0001` is 2^-24; decode is strictly monotone on `0x0000`
to `0x7FFF`. -/
def Obligations.AltFormatRangeAndMonotonicity : Prop :=
  halfValue 0x7FFF#16 = 131008 ∧ halfValue 0x0400#16 = (2 : ℚ) ^ (-14 : ℤ) ∧
  halfValue 0x0001#16 = (2 : ℚ) ^ (-24 : ℤ) ∧
  (∀ h : Half, |halfValue h| ≤ 131008) ∧
  (∀ h : Half, altClass h = .normal → (2 : ℚ) ^ (-14 : ℤ) ≤ |halfValue h|) ∧
  (∀ h : Half, altClass h = .subnormal → (2 : ℚ) ^ (-24 : ℤ) ≤ |halfValue h|) ∧
  (∀ (h₁ h₂ : Half) (s : State), h₁.toNat < h₂.toNat → h₂.toNat ≤ 0x7FFF →
    ∃ w₁ w₂ : Single, Drives (.altHalfToSingleValue (placeHalf h₁)) s (placeSingle w₁) ∧
      Drives (.altHalfToSingleValue (placeHalf h₂)) s (placeSingle w₂) ∧
      singleValue w₁ < singleValue w₂)
end

