-- ==== Sys2Proof/Laws/Decode.lean ====
section
/-! SUPPORT. The fields of a command word, and the opcode map read in its two directions. -/

namespace Sys2Proof

@[simp] theorem opField_makeCommand (op : OpCode) (a : Port) : opField (makeCommand op a) = op := by
  apply BitVec.eq_of_getLsbD_eq
  intro i hi
  simp only [opField, makeCommand, BitVec.getLsbD_extractLsb', BitVec.getLsbD_append]
  simp [hi]

@[simp] theorem aField_makeCommand (op : OpCode) (a : Port) : aField (makeCommand op a) = a := by
  apply BitVec.eq_of_getLsbD_eq
  intro i hi
  simp only [aField, makeCommand, BitVec.getLsbD_extractLsb', BitVec.getLsbD_append]
  simp [hi]

theorem makeCommand_fields (c : Command) : makeCommand (opField c) (aField c) = c := by
  apply BitVec.eq_of_getLsbD_eq
  intro i hi
  simp only [opField, aField, makeCommand, BitVec.getLsbD_extractLsb', BitVec.getLsbD_append]
  by_cases h : i < 64
  · simp [h]
  · have h' : i - 64 < 4 := by omega
    have : 64 + (i - 64) = i := by omega
    simp [h, h', this]

@[simp] theorem operationOf_codeOf (o : Operation) : operationOf (codeOf o) = some o := by
  cases o <;> rfl

theorem codeOf_of_operationOf {op : OpCode} {o : Operation} (h : operationOf op = some o) :
    codeOf o = op := by
  revert op o; decide +revert

@[simp] theorem operation_instr (o : Operation) (a : Port) : (o.instr a).operation = o := by
  cases o <;> rfl

@[simp] theorem operand_instr (o : Operation) (a : Port) : (o.instr a).operand = a := by
  cases o <;> rfl

theorem instr_of_parts (i : Instr) : i.operation.instr i.operand = i := by
  cases i <;> rfl

/-- Everything the decoder can answer. -/
theorem decode_cases (c : Command) :
    (∃ o, operationOf (opField c) = some o ∧ decode c = .ok (o.instr (aField c))) ∨
    (operationOf (opField c) = none ∧ decode c = .error (.reservedCode (opField c))) := by
  unfold decode
  cases h : operationOf (opField c) with
  | some o => exact .inl ⟨o, rfl, rfl⟩
  | none => exact .inr ⟨rfl, rfl⟩

/-- The bits of a word that are not in the command: none below 68 are lost. -/
theorem tableCommand_toNat (c : Command) : tableCommand 68 c.toNat = some c := by
  have h := c.isLt
  rw [tableCommand, Nat.mod_eq_of_lt h, if_pos h, BitVec.ofNat_toNat, BitVec.setWidth_eq]

end Sys2Proof
end

