-- ==== Sys2Proof/Laws/Fields.lean ====
section
/-! SUPPORT. Packing and field access undo each other, and so do placing a result and taking it as the
next operand. -/

namespace Sys2Proof.Machine

@[simp] theorem halfOperand_placeHalf (h : Half) : halfOperand (placeHalf h) = h := by
  apply BitVec.eq_of_getLsbD_eq
  intro i hi
  have h64 : i < 64 := by omega
  simp [halfOperand, placeHalf, hi, h64]

@[simp] theorem singleOperand_placeSingle (w : Single) : singleOperand (placeSingle w) = w := by
  apply BitVec.eq_of_getLsbD_eq
  intro i hi
  have h64 : i < 64 := by omega
  simp [singleOperand, placeSingle, hi, h64]

theorem packHalf_fields (h : Half) : packHalf (halfSign h) (halfExp h) (halfMan h) = h := by
  apply BitVec.eq_of_getLsbD_eq
  intro i hi
  simp only [packHalf, halfSign, halfExp, halfMan, BitVec.getLsbD_append, BitVec.getLsbD_extractLsb']
  by_cases h1 : i < 10
  · simp [h1]
  · by_cases h2 : i - 10 < 5
    · simp [h1, h2, show 10 + (i - 10) = i by omega]
    · simp [h1, h2, show i - 10 - 5 < 1 by omega, show 15 + (i - 10 - 5) = i by omega]

theorem packSingle_fields (w : Single) :
    packSingle (singleSign w) (singleExp w) (singleMan w) = w := by
  apply BitVec.eq_of_getLsbD_eq
  intro i hi
  simp only [packSingle, singleSign, singleExp, singleMan, BitVec.getLsbD_append,
    BitVec.getLsbD_extractLsb']
  by_cases h1 : i < 23
  · simp [h1]
  · by_cases h2 : i - 23 < 8
    · simp [h1, h2, show 23 + (i - 23) = i by omega]
    · simp [h1, h2, show i - 23 - 8 < 1 by omega, show 31 + (i - 23 - 8) = i by omega]

/-- The detector finds the highest one (R10). -/
theorem leadingOneBelow_spec (m : BitVec 10) (n p : Nat) (h : leadingOneBelow m n = some p) :
    p < n ∧ m.getLsbD p = true ∧ ∀ j, p < j → j < n → m.getLsbD j = false := by
  induction n with
  | zero => cases h
  | succ n ih =>
    unfold leadingOneBelow at h
    split at h
    · rename_i hb
      cases h
      exact ⟨by omega, hb, fun j h1 h2 => by omega⟩
    · rename_i hb
      obtain ⟨h1, h2, h3⟩ := ih h
      refine ⟨by omega, h2, fun j hp hj => ?_⟩
      rcases Nat.lt_succ_iff_lt_or_eq.1 hj with hlt | rfl
      · exact h3 j hp hlt
      · exact Bool.eq_false_iff.2 hb

@[simp] theorem halfSign_packHalf (s : Sign) (e : BitVec 5) (m : BitVec 10) :
    halfSign (packHalf s e m) = s := by
  apply BitVec.eq_of_getLsbD_eq
  intro i hi
  simp only [packHalf, halfSign, BitVec.getLsbD_extractLsb', BitVec.getLsbD_append]
  simp [hi, show ¬ 15 + i < 10 by omega, show ¬ 15 + i - 10 < 5 by omega,
    show 15 + i - 10 - 5 = i by omega]

@[simp] theorem halfExp_packHalf (s : Sign) (e : BitVec 5) (m : BitVec 10) :
    halfExp (packHalf s e m) = e := by
  apply BitVec.eq_of_getLsbD_eq
  intro i hi
  simp only [packHalf, halfExp, BitVec.getLsbD_extractLsb', BitVec.getLsbD_append]
  simp [hi, show ¬ 10 + i < 10 by omega]

@[simp] theorem halfMan_packHalf (s : Sign) (e : BitVec 5) (m : BitVec 10) :
    halfMan (packHalf s e m) = m := by
  apply BitVec.eq_of_getLsbD_eq
  intro i hi
  simp only [packHalf, halfMan, BitVec.getLsbD_extractLsb', BitVec.getLsbD_append]
  simp [hi]

@[simp] theorem singleSign_packSingle (s : Sign) (e : BitVec 8) (m : BitVec 23) :
    singleSign (packSingle s e m) = s := by
  apply BitVec.eq_of_getLsbD_eq
  intro i hi
  simp only [packSingle, singleSign, BitVec.getLsbD_extractLsb', BitVec.getLsbD_append]
  simp [hi, show ¬ 31 + i < 23 by omega, show ¬ 31 + i - 23 < 8 by omega,
    show 31 + i - 23 - 8 = i by omega]

@[simp] theorem singleExp_packSingle (s : Sign) (e : BitVec 8) (m : BitVec 23) :
    singleExp (packSingle s e m) = e := by
  apply BitVec.eq_of_getLsbD_eq
  intro i hi
  simp only [packSingle, singleExp, BitVec.getLsbD_extractLsb', BitVec.getLsbD_append]
  simp [hi, show ¬ 23 + i < 23 by omega]

@[simp] theorem singleMan_packSingle (s : Sign) (e : BitVec 8) (m : BitVec 23) :
    singleMan (packSingle s e m) = m := by
  apply BitVec.eq_of_getLsbD_eq
  intro i hi
  simp only [packSingle, singleMan, BitVec.getLsbD_extractLsb', BitVec.getLsbD_append]
  simp [hi]

/-- The fifteen bits below the sign, as exponent field and mantissa. -/
theorem packHalfMag_eq_packHalf (s : Sign) (mag : BitVec 15) :
    packHalfMag s mag = packHalf s (mag.extractLsb' 10 5) (mag.extractLsb' 0 10) := by
  apply BitVec.eq_of_getLsbD_eq
  intro i hi
  simp only [packHalfMag, packHalf, BitVec.getLsbD_append, BitVec.getLsbD_extractLsb']
  by_cases h1 : i < 10
  · simp [h1, show i < 15 by omega]
  · by_cases h2 : i < 15
    · simp [h1, h2, show i - 10 < 5 by omega, show 10 + (i - 10) = i by omega]
    · simp [h1, h2, show ¬ i - 10 < 5 by omega, show i - 10 - 5 = i - 15 by omega]

theorem halfSign_packHalfMag (s : Sign) (mag : BitVec 15) : halfSign (packHalfMag s mag) = s := by
  rw [packHalfMag_eq_packHalf, halfSign_packHalf]

theorem halfExp_packHalfMag (s : Sign) (mag : BitVec 15) :
    (halfExp (packHalfMag s mag)).toNat = mag.toNat / 1024 := by
  have h := mag.isLt
  rw [packHalfMag_eq_packHalf, halfExp_packHalf, BitVec.extractLsb'_toNat, Nat.shiftRight_eq_div_pow]
  omega

theorem halfMan_packHalfMag (s : Sign) (mag : BitVec 15) :
    (halfMan (packHalfMag s mag)).toNat = mag.toNat % 1024 := by
  rw [packHalfMag_eq_packHalf, halfMan_packHalf, BitVec.extractLsb'_toNat]
  rfl

/-- A half pattern is its sign and its magnitude. -/
theorem half_toNat (h : Half) :
    h.toNat = (halfSign h).toNat * 32768 + (halfExp h).toNat * 1024 + (halfMan h).toNat := by
  have hb := h.isLt
  simp only [halfSign, halfExp, halfMan, BitVec.extractLsb'_toNat, Nat.shiftRight_eq_div_pow]
  omega

/-- The detector finds nothing exactly in a zero (R10). -/
theorem lod10_eq_none_iff (m : BitVec 10) : lod10 m = none ↔ m = 0#10 := by
  revert m; decide

end Sys2Proof.Machine
end

