-- ==== Sys2Proof/Laws/State.lean ====
section
/-! SUPPORT. One lemma per field for each update of the ports. -/

namespace Sys2Proof.Machine

@[simp] theorem reset_input : State.reset.input = none := rfl
@[simp] theorem reset_output : State.reset.output = none := rfl

@[simp] theorem driveResult_input (y : Port) (s : State) : (driveResult y s).input = s.input := rfl
@[simp] theorem driveResult_output (y : Port) (s : State) :
    (driveResult y s).output = some { y := y, illegal := false } := rfl

@[simp] theorem present_input (c : Command) (s : State) : (present c s).input = some c := rfl
@[simp] theorem present_output (c : Command) (s : State) : (present c s).output = none := rfl

@[simp] theorem withFetchWord_input (s : State) (n w : Nat) :
    (s.withFetchWord n w).input = tableCommand n w := rfl
@[simp] theorem withFetchWord_output (s : State) (n w : Nat) :
    (s.withFetchWord n w).output = none := rfl

end Sys2Proof.Machine
end

