-- ==== Sys2Proof/Laws/Ops.lean ====
section
/-! SUPPORT. What each shared operation can do, said once. -/

namespace Sys2Proof.Machine

/-- An operation drives the outputs and changes nothing else. -/
theorem exec_cases {i : Instr} {s t : State} (h : exec i s = .next t) : ∃ y, t = driveResult y s := by
  cases i <;> exact ⟨_, (Host.Outcome.next.inj h).symm⟩

/-- Everything a step can do. -/
theorem step_cases (s : State) :
    (s.input = none ∧ step s = .fault .noCommand) ∨
    (∃ c o, s.input = some c ∧ operationOf (opField c) = some o ∧
      step s = exec (o.instr (aField c)) s) ∨
    (∃ c, s.input = some c ∧ operationOf (opField c) = none ∧
      step s = .refused (.reservedCode (opField c))) := by
  unfold step
  cases hc : s.input with
  | none => exact .inl ⟨rfl, rfl⟩
  | some c =>
    rcases decode_cases c with ⟨o, ho, hd⟩ | ⟨ho, hd⟩
    · exact .inr (.inl ⟨c, o, rfl, ho, by simp [hd]⟩)
    · exact .inr (.inr ⟨c, rfl, ho, by simp [hd]⟩)

theorem sample_of_output {s : State} {o : Output} (h : s.output = some o) : sample s = .next o := by
  simp [sample, h]

theorem sample_of_no_output {s : State} (h : s.output = none) : sample s = .fault .resultNotValid := by
  simp [sample, h]

@[simp] theorem andThen_next {α β : Type} (x : α) (f : α → Host.Outcome β Fault Refusal) :
    andThen (.next x) f = f x := rfl
@[simp] theorem andThen_fault {α β : Type} (r : Fault) (f : α → Host.Outcome β Fault Refusal) :
    andThen (.fault r) f = .fault r := rfl
@[simp] theorem andThen_refused {α β : Type} (r : Refusal) (f : α → Host.Outcome β Fault Refusal) :
    andThen (.refused r) f = .refused r := rfl

/-- A chain answers a next state only through one. -/
theorem andThen_eq_next {α β : Type} {o : Host.Outcome α Fault Refusal}
    {f : α → Host.Outcome β Fault Refusal} {y : β} (h : andThen o f = .next y) :
    ∃ x, o = .next x ∧ f x = .next y := by
  cases o with
  | next x => exact ⟨x, rfl, h⟩
  | fault r => cases h
  | refused r => cases h

end Sys2Proof.Machine
end

