-- ==== Sys2Proof/Laws/PerInstr.lean ====
section
/-! SUPPORT. What holds of every instruction as syntax, one lemma per constructor. -/

namespace Sys2Proof.Laws.EncodedFields

/-- The word of an instruction holds its code (30_encoding.md R62) and its whole operand (R60). -/
def Statement (i : Instr) : Prop :=
  opField (encode i) = codeOf i.operation ∧ aField (encode i) = i.operand

theorem ieeeHalfToSingleBits (a : Port) : Statement (.ieeeHalfToSingleBits a) := by
  simp [Statement, encode]
theorem ieeeHalfToSingleValue (a : Port) : Statement (.ieeeHalfToSingleValue a) := by
  simp [Statement, encode]
theorem singleToIeeeHalfValue (a : Port) : Statement (.singleToIeeeHalfValue a) := by
  simp [Statement, encode]
theorem altHalfToSingleBits (a : Port) : Statement (.altHalfToSingleBits a) := by
  simp [Statement, encode]
theorem altHalfToSingleValue (a : Port) : Statement (.altHalfToSingleValue a) := by
  simp [Statement, encode]
theorem singleToAltHalfValue (a : Port) : Statement (.singleToAltHalfValue a) := by
  simp [Statement, encode]
theorem bitsToSingleValue (a : Port) : Statement (.bitsToSingleValue a) := by
  simp [Statement, encode]
theorem singleValueToBits (a : Port) : Statement (.singleValueToBits a) := by
  simp [Statement, encode]
theorem bitsToDoubleValue (a : Port) : Statement (.bitsToDoubleValue a) := by
  simp [Statement, encode]
theorem doubleValueToBits (a : Port) : Statement (.doubleValueToBits a) := by
  simp [Statement, encode]

end Sys2Proof.Laws.EncodedFields
end

