-- ==== Sys2Proof/Laws/Pipeline.lean ====
section
/-! SUPPORT. What a command leaves in the pipeline, and that the number of registers is LATENCY at every
edge (10_state.md R31). -/

namespace Sys2Proof.Machine

@[simp] theorem arrivalOf_operation (P : Params) {c : Command} (h : isOperation c = true) :
    arrivalOf P c = .result (block P (opField c) (aField c)) := by
  simp [arrivalOf, h]

@[simp] theorem arrivalOf_reserved (P : Params) {c : Command} (h : isOperation c = false) :
    arrivalOf P c = .reserved (opField c) := by
  simp [arrivalOf, h]

@[simp] theorem inFlight_length (P : Params) (input : Option Command) (p : Pipe) :
    (p.inFlight P input).length = p.stages.length + 1 := by
  simp [Pipe.inFlight]

@[simp] theorem edge_stages_length (P : Params) (input : Option Command) (p : Pipe) :
    (p.edge P input).stages.length = p.stages.length := by
  simp [Pipe.edge]

theorem after_stages_length (P : Params) (inputs : Nat → Option Command) (t : Nat) :
    (Pipe.after P inputs t).stages.length = P.latency := by
  induction t with
  | zero => simp [Pipe.after, Pipe.powerUp]
  | succ t ih => simpa [Pipe.after] using ih

end Sys2Proof.Machine
end

