-- ==== Sys2Proof/Laws/Rounding.lean ====
section
/-! SUPPORT. The signals of the rounding unit and the significand as arithmetic on numbers. -/

namespace Sys2Proof.Machine

theorem ruKept_eq_div (sig : BitVec 24) (n : Nat) : ruKept sig n = sig.toNat / 2 ^ n := by
  simp [ruKept, Nat.shiftRight_eq_div_pow]

theorem ruGuard_eq_testBit (sig : BitVec 24) (n : Nat) : ruGuard sig n = sig.toNat.testBit (n - 1) := rfl

theorem ruSticky_iff (sig : BitVec 24) (n : Nat) :
    ruSticky sig n = true ↔ sig.toNat % 2 ^ (n - 1) ≠ 0 := by
  simp [ruSticky]

/-- The significand is the mantissa with the implicit one above it. -/
theorem significand_toNat (m : BitVec 23) : (significand m).toNat = 2 ^ 23 + m.toNat := by
  have h := m.isLt
  simp only [significand, BitVec.toNat_append]
  rw [← Nat.shiftLeft_add_eq_or_of_lt h]
  simp [Nat.shiftLeft_eq]

end Sys2Proof.Machine
end

