-- ==== Sys2Proof/Laws/Value.lean ====
section
/-! SUPPORT. The value of a pattern as a whole number of units: 2^-24 for a half (the count of
41_ieee_codec.md R100), 2^-149 for a binary32. -/

namespace Sys2Proof.Machine

/-- The magnitude of a half in units of 2^-24. -/
def halfUnits (h : Half) : Nat :=
  if halfExp h = 0#5 then (halfMan h).toNat
  else (1024 + (halfMan h).toNat) * 2 ^ ((halfExp h).toNat - 1)

/-- The magnitude of a binary32 in units of 2^-149. -/
def singleUnits (w : Single) : Nat :=
  if singleExp w = 0#8 then (singleMan w).toNat
  else (2 ^ 23 + (singleMan w).toNat) * 2 ^ ((singleExp w).toNat - 1)

theorem halfMagnitude_eq_units (h : Half) :
    halfMagnitude h = (halfUnits h : ℚ) * (2 : ℚ) ^ (-24 : ℤ) := by
  unfold halfMagnitude halfUnits
  split
  · norm_num
    ring
  · rename_i he
    have h1 : 1 ≤ (halfExp h).toNat := by
      rcases Nat.eq_zero_or_pos (halfExp h).toNat with h0 | h0
      · exact absurd (BitVec.eq_of_toNat_eq h0) he
      · exact h0
    obtain ⟨k, hk⟩ := Nat.exists_eq_add_of_le h1
    rw [hk]
    push_cast
    rw [show (1 + (k : ℤ) - 15) = (k : ℤ) + (-14) by ring, zpow_add₀ (by norm_num), zpow_natCast,
      show 1 + k - 1 = k by omega]
    norm_num
    ring

theorem singleMagnitude_eq_units (w : Single) :
    singleMagnitude w = (singleUnits w : ℚ) * (2 : ℚ) ^ (-149 : ℤ) := by
  unfold singleMagnitude singleUnits
  split
  · norm_num
    ring
  · rename_i he
    have h1 : 1 ≤ (singleExp w).toNat := by
      rcases Nat.eq_zero_or_pos (singleExp w).toNat with h0 | h0
      · exact absurd (BitVec.eq_of_toNat_eq h0) he
      · exact h0
    obtain ⟨k, hk⟩ := Nat.exists_eq_add_of_le h1
    rw [hk]
    push_cast
    rw [show (1 + (k : ℤ) - 127) = (k : ℤ) + (-126) by ring, zpow_add₀ (by norm_num), zpow_natCast,
      show 1 + k - 1 = k by omega]
    norm_num
    ring

theorem abs_signFactor (s : Sign) : |signFactor s| = 1 := by
  simp [signFactor, abs_pow]

theorem abs_halfValue (h : Half) : |halfValue h| = (halfUnits h : ℚ) * (2 : ℚ) ^ (-24 : ℤ) := by
  rw [halfValue, abs_mul, abs_signFactor, one_mul, halfMagnitude_eq_units]
  exact abs_of_nonneg (by positivity)

theorem abs_singleValue (w : Single) : |singleValue w| = (singleUnits w : ℚ) * (2 : ℚ) ^ (-149 : ℤ) := by
  rw [singleValue, abs_mul, abs_signFactor, one_mul, singleMagnitude_eq_units]
  exact abs_of_nonneg (by positivity)

end Sys2Proof.Machine
end

