-- ==== Sys2Proof/Tests/Slice0.lean ====
section
/-! SUPPORT. Tests: the well-formedness smoke, words decoded from the opcode map, vectors of
95_test_vectors.md (its sections are named at each test), and for every statement with hypotheses a
witness that meets them. -/

namespace Sys2Proof.Tests
open Sys2Proof Sys2Proof.Machine

/-- The input ports hold the command word `c`; the outputs show what an earlier command left. -/
def holding (c : Command) : State := { input := some c, output := some { y := 0x7C00#64, illegal := false } }

/-- What port `y` shows after one step, if the step answers a next state. -/
def yAfter (c : Command) : Option Port :=
  match step (holding c) with
  | .next t => t.output.map Output.y
  | _ => none

/-! ## Well-formedness: an ill-formed term for each check -/

theorem test_half_operand_too_wide : (Instr.ieeeHalfToSingleBits 0x10000#64).wellFormed = false := by decide
theorem test_half_operand_fits : (Instr.ieeeHalfToSingleBits 0xFFFF#64).wellFormed = true := by decide
theorem test_single_operand_too_wide : (Instr.singleToAltHalfValue 0x100000000#64).wellFormed = false := by
  decide
theorem test_literal_too_wide : wellFormedProgram [⟨.altHalfToSingleBits, .literal 0x10000⟩] = false := by
  decide
theorem test_double_literal_too_wide :
    wellFormedProgram [⟨.bitsToDoubleValue, .literal 0x10000000000000000⟩] = false := by decide
theorem test_name_of_the_line_itself : wellFormedProgram [⟨.bitsToSingleValue, .result 0⟩] = false := by decide
theorem test_slice_of_the_line_itself : wellFormedProgram [⟨.bitsToSingleValue, .slice 0 15 0⟩] = false := by
  decide
theorem test_slice_ends_crossed :
    wellFormedProgram [⟨.bitsToSingleValue, .literal 1⟩, ⟨.bitsToSingleValue, .slice 0 3 4⟩] = false := by
  decide
theorem test_slice_above_y :
    wellFormedProgram [⟨.bitsToSingleValue, .literal 1⟩, ⟨.bitsToSingleValue, .slice 0 64 0⟩] = false := by
  decide

/-! ## Decoding: the word of every row, from R60 and R62 -/

theorem test_decode_op0 : decodeTableWord 68 (0b0000 * 2 ^ 64 + 0x3C00) = some (.ieeeHalfToSingleBits 0x3C00#64) := by
  decide
theorem test_decode_op1 : decodeTableWord 68 (0b0001 * 2 ^ 64 + 0x4000) = some (.ieeeHalfToSingleValue 0x4000#64) := by
  decide
theorem test_decode_op2 :
    decodeTableWord 68 (0b0010 * 2 ^ 64 + 0x3F800000) = some (.singleToIeeeHalfValue 0x3F800000#64) := by decide
theorem test_decode_op4 : decodeTableWord 68 (0b0100 * 2 ^ 64 + 0x7C00) = some (.altHalfToSingleBits 0x7C00#64) := by
  decide
theorem test_decode_op5 : decodeTableWord 68 (0b0101 * 2 ^ 64 + 0x3C00) = some (.altHalfToSingleValue 0x3C00#64) := by
  decide
theorem test_decode_op6 :
    decodeTableWord 68 (0b0110 * 2 ^ 64 + 0x47800000) = some (.singleToAltHalfValue 0x47800000#64) := by decide
theorem test_decode_op8 :
    decodeTableWord 68 (0b1000 * 2 ^ 64 + 0x7F800000) = some (.bitsToSingleValue 0x7F800000#64) := by decide
theorem test_decode_op9 :
    decodeTableWord 68 (0b1001 * 2 ^ 64 + 0x3F800000) = some (.singleValueToBits 0x3F800000#64) := by decide
theorem test_decode_opA :
    decodeTableWord 68 (0b1010 * 2 ^ 64 + 0x7FF0000000000000) = some (.bitsToDoubleValue 0x7FF0000000000000#64) := by
  decide
theorem test_decode_opB :
    decodeTableWord 72 (0b1011 * 2 ^ 64 + 0x3FF0000000000000) = some (.doubleValueToBits 0x3FF0000000000000#64) := by
  decide
theorem test_reserved_codes_do_not_decode :
    [0x3, 0x7, 0xC, 0xD, 0xE, 0xF].map (fun n => decodeTableWord 68 (n * 2 ^ 64 + 0x3C00))
      = [none, none, none, none, none, none] := by decide
theorem test_word_of_69_bits_is_no_command : decodeTableWord 72 (2 ^ 68) = none := by decide
/-- R70's two examples. -/
theorem test_encode_written :
    encodeWritten .ieeeHalfToSingleBits 0x3C00 = some 0x00000000000003C00#68 ∧
    encodeWritten .singleToIeeeHalfValue 0x3F800000 = some 0x2000000003F800000#68 := by decide

/-! ## One step: vectors of sections L2.1 to L2.7 -/

theorem test_ieee_decode_largest_subnormal : yAfter 0x000000000000003FF#68 = some 0x387FC000#64 := by decide
theorem test_ieee_decode_nan_upper_bits : yAfter 0x0FFFFFFFFFFFFFD00#68 = some 0xFFA00000#64 := by decide
theorem test_ieee_decode_value_nan : yAfter 0x10000000000007C01#68 = some 0x7F802000#64 := by decide
theorem test_ieee_decode_value_subnormal : yAfter 0x10000000000000155#68 = some 0x37AA8000#64 := by decide
theorem test_ieee_encode_carry_to_smallest_normal : yAfter 0x200000000387FE000#68 = some 0x0400#64 := by decide
theorem test_ieee_encode_overflow_tie : yAfter 0x2FFFFFFFF477FF000#68 = some 0x7C00#64 := by decide
theorem test_alt_decode_exponent_31 : yAfter 0x4123456789ABC7FFF#68 = some 0x47FFE000#64 := by decide
theorem test_alt_decode_negative : yAfter 0x4000000000000FC00#68 = some 0xC7800000#64 := by decide
theorem test_alt_decode_value : yAfter 0x50000000000007E00#68 = some 0x47C00000#64 := by decide
theorem test_alt_encode_clamped_carry : yAfter 0x60000000047FFF000#68 = some 0x7FFF#64 := by decide
theorem test_alt_encode_nan : yAfter 0x600000000FFC00001#68 = some 0xFFFF#64 := by decide
theorem test_bitcast_signalling_nan : yAfter 0x8000000007F800001#68 = some 0x7F800001#64 := by decide
theorem test_bitcast_upper_bits_ignored : yAfter 0x9DEADBEEF3F800000#68 = some 0x3F800000#64 := by decide
theorem test_bitcast_double_nan : yAfter 0xA7FF0000000000001#68 = some 0x7FF0000000000001#64 := by decide
theorem test_bitcast_double_ones : yAfter 0xBFFFFFFFFFFFFFFFF#68 = some 0xFFFFFFFFFFFFFFFF#64 := by decide
theorem test_reserved_code_gives_no_y : yAfter 0x30000000000003C00#68 = none := by decide
/-- Section L2.7: the port values the spec records for the implementer (R67). -/
theorem test_reserved_code_ports :
    blockOf 0xF000000003F800000#68 = { y := 0#64, illegal := true } := by decide

/-! ## The rounding unit: section L2.3 -/

theorem test_ru_tie_even_stays : roundingUnit 0x801000#24 13 = 0x400 := by decide
theorem test_ru_tie_odd_up : roundingUnit 0x803000#24 13 = 0x402 := by decide
theorem test_ru_carry : roundingUnit 0xFFF000#24 13 = 0x800 := by decide
theorem test_ru_above_tie_24 : roundingUnit 0x800001#24 24 = 1 := by decide
theorem test_ru_saturated_shift : roundingUnit 0xFFFFFF#24 25 = 0 := by decide

/-! ## Written commands: R69, R70, program P2 -/

theorem test_assemble_with_comment :
    assemble "ieee_half_to_single_bits 0x3C00 ; 1.0".toList = some 0x00000000000003C00#68 := by decide
theorem test_operand_must_fit : assemble "ieee_half_to_single_bits 0x13C00".toList = none := by decide
theorem test_write_word : writeWord 0x2000000003F800000#68 = "2000000003F800000".toList := by decide
theorem test_read_program :
    readProgramFrom 0 ["t0 <- bits_to_single_value 0x501502F9     ; 1.0e10".toList,
        "t1 <- single_to_ieee_half_value t0        ; saturates to +Inf".toList]
      = some [⟨.bitsToSingleValue, .literal 0x501502F9⟩, ⟨.singleToIeeeHalfValue, .result 0⟩] := by decide

theorem test_read_program_skips_blank_and_comment_lines :
    readProgramFrom 0 ["; a sequence".toList, "t0 <- double_value_to_bits 0x1".toList, "  ".toList,
        "t1 <- bits_to_double_value t0".toList]
      = some [⟨.doubleValueToBits, .literal 1⟩, ⟨.bitsToDoubleValue, .result 0⟩] := by decide

/-- A reserved code in a pipeline of two registers: refused when it arrives, as `step` refuses it. -/
theorem test_pipeline_refuses_reserved_code :
    (Pipe.after { hardware with latency := 2 } (fun _ => some 0x30000000000003C00#68) 2).visible hardware none
      = some (.reserved 0x3#4) := by decide

/-- A word placed on the ports makes an earlier result unreadable (R151). -/
theorem test_placed_word_hides_old_result :
    ((holding 0x80000000000000001#68).withFetchWord 68 0x90000000000000002).output = none := by decide

/-! ## Witnesses: hypotheses of the statements that are met -/

/-- Decodes to a well-formed instruction, and encodes back. -/
theorem witness_EncodeOfDecodeIsTheWord :
    decode 0x00000000000003C00#68 = .ok (.ieeeHalfToSingleBits 0x3C00#64) := by rfl

theorem witness_WrittenCommandIsReadBackAndEncoded :
    0xFFFF < 2 ^ operandWidth .altHalfToSingleBits ∧ 0xFFFFFFFF < 2 ^ operandWidth .bitsToSingleValue ∧
    0xFFFFFFFFFFFFFFFF < 2 ^ operandWidth .doubleValueToBits := by decide

theorem witness_StepRunsTheDecodedCommand :
    (holding 0x5FFFFFFFFFFFF3C00#68).input = some 0x5FFFFFFFFFFFF3C00#68 ∧
    decode 0x5FFFFFFFFFFFF3C00#68 = .ok (.altHalfToSingleValue 0xFFFFFFFFFFFF3C00#64) := ⟨rfl, rfl⟩

theorem witness_StepDrivesTheBlockFunction :
    (holding 0xB0000000000000001#68).input = some 0xB0000000000000001#68 ∧
    isOperation 0xB0000000000000001#68 = true := by decide

theorem witness_StepRefusesExactlyTheReservedCodes :
    (holding 0xC0000000000000000#68).input = some 0xC0000000000000000#68 ∧
    opField 0xC0000000000000000#68 ∈ reservedCodes ∧
    (holding 0xB0000000000000000#68).input = some 0xB0000000000000000#68 ∧
    opField 0xB0000000000000000#68 ∉ reservedCodes := by decide

theorem witness_StepFaultsExactlyWithoutACommand : step State.reset = .fault .noCommand := by rfl

theorem witness_OutputPortsShowResultAndIllegal :
    codeOf .doubleValueToBits = 0xB#4 ∧ (0xC#4 : OpCode) ∈ reservedCodes := by decide

theorem witness_OperandBitsAboveTheWidthAreIgnored :
    (∀ k, k < 16 → (0x3C00#64 : Port).getLsbD k = (0xFFFFFFFFFFFF3C00#64 : Port).getLsbD k) ∧
    (∀ k, k < 32 → (0x3F800000#64 : Port).getLsbD k = (0xDEADBEEF3F800000#64 : Port).getLsbD k) := by decide

theorem witness_ResultBitsAboveTheWidthAreZero :
    (Operation.singleToIeeeHalfValue, 16) ∈ [(Operation.singleToIeeeHalfValue, 16), (.bitsToSingleValue, 32)] := by
  decide

theorem witness_ResultsDoNotDependOnEarlierCommands :
    (holding 0x400000000000007FF#68).input = (present 0x400000000000007FF#68 State.reset).input ∧
    (holding 0x400000000000007FF#68).output ≠ (present 0x400000000000007FF#68 State.reset).output := by decide

theorem witness_StepIsAtomicAndIdempotent :
    step (holding 0x8000000007F800001#68) =
      .next { input := some 0x8000000007F800001#68, output := some { y := 0x7F800001#64, illegal := false } } := by
  rfl

theorem witness_StepKeepsThePortsInvariant :
    let s : State := { input := some 0x00000000000003C00#68, output := some { y := 0x3F800000#64, illegal := false } }
    s.Inv ∧ step s = .next s := by
  refine ⟨?_, by rfl⟩
  rintro o ⟨⟩
  exact ⟨_, rfl, by decide, by decide⟩

theorem witness_HostMovesKeepThePortsInvariant :
    let s : State := { input := some 0x00000000000003C00#68, output := some { y := 0x3F800000#64, illegal := false } }
    runMove .sample s [] = .next (s, [{ y := 0x3F800000#64, illegal := false }]) ∧
    runMove .settle s [] = .next (s, []) ∧
    runMove (.present 0x30000000000000000#68) s [] = .next (present 0x30000000000000000#68 s, []) :=
  ⟨by rfl, by rfl, by rfl⟩

/-- A conforming block other than this hardware: every NaN quieted, two pipeline registers. -/
def quietParams : Params where
  latency := 2
  decNan s m := s ++ 0xFF#8 ++ 1#1 ++ m ++ 0#12
  encNan s _ := s ++ 0x7FFF#15
  altInf s := s ++ 0x7FFF#15
  altNan s _ := s ++ 0#15

theorem quietParams_conforming : quietParams.Conforming where
  decNan_exponent := by decide
  decNan_mantissa := by decide
  decNan_sign := by decide
  encNan_sign s _ _ := (by decide : ∀ s : Sign, (s ++ 0x7FFF#15 : Half).extractLsb' 15 1 = s) s
  encNan_exponent s _ _ := (by decide : ∀ s : Sign, (s ++ 0x7FFF#15 : Half).extractLsb' 10 5 = 0x1F#5) s
  encNan_mantissa s _ _ := (by decide : ∀ s : Sign, (s ++ 0x7FFF#15 : Half).extractLsb' 0 10 ≠ 0#10) s

theorem witness_OnlyValidResultsAreRead :
    isOperation 0x00000000000003C00#68 = true ∧ 1 < quietParams.latency ∧
    (fun _ : Nat => some (0x00000000000003C00#68 : Command)) 0 = some 0x00000000000003C00#68 := by decide

/-- A stream that holds an operation, a reserved code and an edge without a command. -/
def mixedStream : Nat → Option Command
  | 0 => some 0x00000000000003C00#68
  | 1 => some 0xF0000000000000001#68
  | _ => none

theorem witness_PipelineDeliversAfterLatency :
    mixedStream 0 = some 0x00000000000003C00#68 ∧ isOperation 0x00000000000003C00#68 = true ∧
    1 < quietParams.latency := by decide

theorem witness_PipelineGivesNoValueWithoutAnOperation :
    mixedStream 2 = none ∧ mixedStream 1 = some 0xF0000000000000001#68 ∧
    opField 0xF0000000000000001#68 ∈ reservedCodes := by decide

theorem witness_PipelineAgreesWithTheAtomicStep :
    mixedStream 0 = some 0x00000000000003C00#68 ∧ mixedStream 1 = some 0xF0000000000000001#68 := by decide

theorem witness_ObedientHostReadsBlockResults :
    let ms : List Move := [.present 0x00000000000003C00#68, .present 0x200000000387FE000#68, .settle, .sample,
      .settle, .sample, .present 0x50000000000000400#68, .settle, .sample]
    obeys .idle ms = true ∧ presentsOperationsOnly ms = true ∧
    expectedSamples .idle ms = [⟨0x0400#64, false⟩, ⟨0x0400#64, false⟩, ⟨0x38800000#64, false⟩] := by decide

/-- Program P2 of section L3. -/
theorem witness_WrittenSequencesRunToBlockResults :
    let p2 : List Line := [⟨.bitsToSingleValue, .literal 0x501502F9⟩, ⟨.singleToIeeeHalfValue, .result 0⟩,
      ⟨.ieeeHalfToSingleValue, .result 1⟩, ⟨.singleToAltHalfValue, .result 2⟩, ⟨.altHalfToSingleBits, .slice 3 15 0⟩,
      ⟨.singleValueToBits, .result 4⟩]
    wellFormedProgram p2 = true ∧
    programResults p2 [] = some [0x501502F9#64, 0x7C00#64, 0x7F800000#64, 0x7FFF#64, 0x47FFE000#64, 0x47FFE000#64] := by
  decide

theorem witness_BitcastsKeepEveryBit :
    (Operation.bitsToDoubleValue, 64) ∈ [(Operation.bitsToSingleValue, 32), (.bitsToDoubleValue, 64)] := by decide

/-- A half for each case of R93: zero, subnormals with the leading one at 0 and at 9, infinity, NaN, the
first and the last normal. -/
theorem witness_IeeeDecodeFollowsItsCases :
    (halfExp 0x8000#16 = 0#5 ∧ halfMan 0x8000#16 = 0#10) ∧
    (halfExp 0x0001#16 = 0#5 ∧ (halfMan 0x0001#16).getLsbD 0 = true ∧ lod10 (halfMan 0x0001#16) = some 0) ∧
    (halfExp 0x03FF#16 = 0#5 ∧ (halfMan 0x03FF#16).getLsbD 9 = true ∧ lod10 (halfMan 0x03FF#16) = some 9) ∧
    (halfExp 0x7C00#16 = 31#5 ∧ halfMan 0x7C00#16 = 0#10) ∧
    (halfExp 0x7C01#16 = 31#5 ∧ halfMan 0x7C01#16 ≠ 0#10) ∧
    (halfExp 0x0400#16).toNat = 1 ∧ (halfExp 0x7BFF#16).toNat = 30 := by decide

theorem leading_one_premise (p : Nat) (m : BitVec 10) (h : lod10 m = some p) :
    p ≤ 9 ∧ ∀ j, p < j → m.getLsbD j = false := by
  obtain ⟨h1, _, h3⟩ := leadingOneBelow_spec m 10 p h
  refine ⟨by omega, fun j hj => ?_⟩
  by_cases h10 : j < 10
  · exact h3 j hj h10
  · exact BitVec.getLsbD_of_ge m j (by omega)

theorem witness_IeeeDecodeIsExact :
    ieeeFinite 0x0001#16 ∧ ieeeFinite 0xFBFF#16 ∧ ieeeClass 0xFC00#16 = .infinity ∧ ieeeClass 0x7C01#16 = .nan := by
  refine ⟨?_, ?_, ?_, ?_⟩ <;> decide

theorem witness_IeeeDecodeKeepsNanAndSign :
    quietParams.Conforming ∧ ieeeClass 0xFC01#16 = .nan ∧ ieeeClass (halfOperand 0x17FFF#64) = .nan :=
  ⟨quietParams_conforming, by decide, by decide⟩

theorem witness_IeeeDecodeIsStrictlyMonotone :
    halfSign 0x7BFE#16 = 0#1 ∧ halfSign 0x7BFF#16 = 0#1 ∧ ieeeFinite 0x7BFE#16 ∧ ieeeFinite 0x7BFF#16 ∧
    (0x7BFE#16 : Half).toNat < (0x7BFF#16 : Half).toNat := by
  refine ⟨?_, ?_, ?_, ?_, ?_⟩ <;> decide

/-- The ends of the shift range, and a significand for each clause: a tie that stays, a tie that goes up,
no guard, guard and sticky, guard alone. -/
theorem witness_RoundingUnitRoundsToNearestEven :
    (13 ≤ 13 ∧ 25 ≤ 25) ∧
    2 * 0x801000 = 2 * roundingUnit 0x801000#24 13 * 2 ^ 13 + 2 ^ 13 ∧
    2 * roundingUnit 0x803000#24 13 * 2 ^ 13 = 2 * 0x803000 + 2 ^ 13 ∧
    Nat.testBit 0xFFFFFF (25 - 1) = false ∧
    (Nat.testBit 0x800001 (24 - 1) = true ∧ 0x800001 % 2 ^ (24 - 1) ≠ 0) ∧
    (Nat.testBit 0x800000 (24 - 1) = true ∧ 0x800000 % 2 ^ (24 - 1) = 0) := by decide

/-- The carry at both ends of the normal range (E = 113, 142), and at the top of the subnormal one. -/
theorem witness_RoundingUnitRangeAndCarry :
    roundingUnit 0xFFE000#24 14 * 2 ^ 14 = 2 ^ 24 ∧ (0xFFF000#24 : BitVec 24).getLsbD 23 = true ∧
    ((singleExp 0x38FFF000#32).toNat = 113 ∧
      roundingUnit (significand (singleMan 0x38FFF000#32)) 13 = 2048) ∧
    ((singleExp 0x477FF000#32).toNat = 142 ∧
      roundingUnit (significand (singleMan 0x477FF000#32)) 13 = 2048) ∧
    ((singleExp 0x387FE000#32).toNat = 112 ∧
      roundingUnit (significand (singleMan 0x387FE000#32)) (min (126 - 112) 25) = 1024) := by decide

/-- A binary32 at both ends of each case of R98 and R112. -/
theorem witness_encode_cases :
    ((singleExp 0x7F800001#32).toNat = 255 ∧ singleMan 0x7F800001#32 ≠ 0#23) ∧
    ((singleExp 0xFF800000#32).toNat = 255 ∧ singleMan 0xFF800000#32 = 0#23) ∧
    (singleExp 0x807FFFFF#32).toNat = 0 ∧
    (singleExp 0x47800000#32).toNat = 143 ∧ (singleExp 0x48000000#32).toNat = 144 ∧
    (singleExp 0x7F7FFFFF#32).toNat = 254 ∧
    (singleExp 0x38800000#32).toNat = 113 ∧ (singleExp 0x477FFFFF#32).toNat = 142 ∧
    (singleExp 0x00800000#32).toNat = 1 ∧ (singleExp 0x387FFFFF#32).toNat = 112 := by decide

/-- Just below the overflow threshold (65519.996). -/
theorem witness_IeeeEncodeRoundsToNearestEven :
    singleFinite (singleOperand 0x477FEFFF#64) ∧ |singleValue (singleOperand 0x477FEFFF#64)| < 65520 := by
  refine ⟨by decide, ?_⟩
  rw [abs_singleValue, show singleUnits (singleOperand 0x477FEFFF#64) = 0xFFEFFF * 2 ^ 141 by decide]
  norm_num

/-- The threshold itself. -/
theorem witness_IeeeEncodeSaturatesFrom65520 :
    singleFinite (singleOperand 0x477FF000#64) ∧ 65520 ≤ |singleValue (singleOperand 0x477FF000#64)| := by
  refine ⟨by decide, ?_⟩
  rw [abs_singleValue, show singleUnits (singleOperand 0x477FF000#64) = 0xFFF000 * 2 ^ 141 by decide]
  norm_num

/-- 2^-25, the pattern above it, 1023.5 × 2^-24, and a binary32 subnormal. -/
theorem witness_UnderflowGivesTheRoundedCount :
    (singleFinite 0x33000000#32 ∧ |singleValue 0x33000000#32| = (2 : ℚ) ^ (-25 : ℤ)) ∧
    (singleFinite 0x33000001#32 ∧ (2 : ℚ) ^ (-25 : ℤ) < |singleValue 0x33000001#32| ∧
      |singleValue 0x33000001#32| < 3 / 2 * (2 : ℚ) ^ (-24 : ℤ)) ∧
    (singleFinite 0x387FE000#32 ∧ |singleValue 0x387FE000#32| = 2047 / 2 * (2 : ℚ) ^ (-24 : ℤ)) ∧
    (singleClass 0x807FFFFF#32 = .subnormal ∧ |singleValue 0x807FFFFF#32| < (2 : ℚ) ^ (-14 : ℤ)) := by
  refine ⟨⟨by decide, ?_⟩, ⟨by decide, ?_, ?_⟩, ⟨by decide, ?_⟩, ⟨by decide, ?_⟩⟩
  · rw [abs_singleValue, show singleUnits 0x33000000#32 = 0x800000 * 2 ^ 101 by decide]; norm_num
  · rw [abs_singleValue, show singleUnits 0x33000001#32 = 0x800001 * 2 ^ 101 by decide]; norm_num
  · rw [abs_singleValue, show singleUnits 0x33000001#32 = 0x800001 * 2 ^ 101 by decide]; norm_num
  · rw [abs_singleValue, show singleUnits 0x387FE000#32 = 0xFFE000 * 2 ^ 111 by decide]; norm_num
  · rw [abs_singleValue, show singleUnits 0x807FFFFF#32 = 0x7FFFFF by decide]; norm_num

theorem witness_IeeeEncodeKeepsNanAndInfinity :
    singleClass (singleOperand 0xFF800001#64) = .nan ∧ singleClass (singleOperand 0xFF800000#64) = .infinity ∧
    quietParams.Conforming := ⟨by decide, by decide, quietParams_conforming⟩

theorem witness_IeeeRoundTripIsTheIdentity :
    ieeeClass 0xFC00#16 ≠ .nan ∧ ieeeClass 0x8001#16 ≠ .nan ∧ ieeeClass 0xFFFF#16 = .nan ∧ quietParams.Conforming :=
  ⟨by decide, by decide, by decide, quietParams_conforming⟩

/-- As for R93, and exponent field 31. -/
theorem witness_AltDecodeFollowsItsCases :
    (halfExp 0x8000#16 = 0#5 ∧ halfMan 0x8000#16 = 0#10) ∧ lod10 (halfMan 0x0200#16) = some 9 ∧
    (halfExp 0x0400#16).toNat = 1 ∧ (halfExp 0x7FFF#16).toNat = 31 := by decide

/-- The ends of the two ranges, and the patterns beside them. -/
theorem witness_AltDivergesOnlyAtExponent31 :
    (0x7C00 ≤ (0x7C00#16 : Half).toNat ∧ (0x7FFF#16 : Half).toNat ≤ 0x7FFF ∧ 0xFC00 ≤ (0xFC00#16 : Half).toNat) ∧
    ¬ (0x7C00 ≤ (0x7BFF#16 : Half).toNat ∧ (0x7BFF#16 : Half).toNat ≤ 0x7FFF ∨ 0xFC00 ≤ (0x7BFF#16 : Half).toNat) ∧
    ¬ (0x7C00 ≤ (0x8000#16 : Half).toNat ∧ (0x8000#16 : Half).toNat ≤ 0x7FFF ∨ 0xFC00 ≤ (0x8000#16 : Half).toNat) := by
  decide

/-- The threshold 131040, and the pattern below it. -/
theorem witness_AltEncodeClampsAndRounds :
    singleFinite (singleOperand 0x47FFF000#64) ∧ 131040 ≤ |singleValue (singleOperand 0x47FFF000#64)| ∧
    singleFinite (singleOperand 0x47FFEFFF#64) ∧ |singleValue (singleOperand 0x47FFEFFF#64)| < 131040 := by
  refine ⟨by decide, ?_, by decide, ?_⟩
  · rw [abs_singleValue, show singleUnits (singleOperand 0x47FFF000#64) = 0xFFF000 * 2 ^ 142 by decide]; norm_num
  · rw [abs_singleValue, show singleUnits (singleOperand 0x47FFEFFF#64) = 0xFFEFFF * 2 ^ 142 by decide]; norm_num

theorem witness_AltEncodeOfInfinityAndNan :
    singleClass (singleOperand 0x7F800000#64) = .infinity ∧ singleClass (singleOperand 0x7FC00000#64) = .nan := by
  decide

theorem witness_AltFormatRangeAndMonotonicity :
    altClass 0x7FFF#16 = .normal ∧ altClass 0x0400#16 = .normal ∧ altClass 0x83FF#16 = .subnormal ∧
    (0x7FFE#16 : Half).toNat < (0x7FFF#16 : Half).toNat ∧ (0x7FFF#16 : Half).toNat ≤ 0x7FFF := by decide

end Sys2Proof.Tests
end

section
/-! PROOFS. The step against the block function (10_state.md R23, 70_reset_and_hazards.md R154), and the
conformance of 00_scope.md R15. -/

namespace Sys2Proof.Machine

/-- An operation drives the `y` that the block function gives for its code (R62). -/
theorem exec_instr (o : Operation) (a : Port) (s : State) :
    exec (o.instr a) s = .next (driveResult (blockResult hardware (codeOf o) a) s) := by
  cases o <;> rfl

theorem isOperation_iff (c : Command) :
    isOperation c = true ↔ ∃ o, operationOf (opField c) = some o :=
  Option.isSome_iff_exists

/-- The block's outputs for an operation: its result, with `illegal` 0 (R22, R65). -/
theorem blockOf_of_operationOf {c : Command} {o : Operation} (h : operationOf (opField c) = some o) :
    blockOf c = { y := blockResult hardware (codeOf o) (aField c), illegal := false } := by
  simp [blockOf, block, illegalOutput, h, codeOf_of_operationOf h]

/-- R154: one step produces `Block(op, a)` of the presented operation and holds the inputs. -/
theorem step_of_isOperation {s : State} {c : Command} (hin : s.input = some c)
    (hop : isOperation c = true) :
    step s = .next { input := some c, output := some (blockOf c) } := by
  obtain ⟨o, ho⟩ := (isOperation_iff c).1 hop
  rcases step_cases s with ⟨hnone, -⟩ | ⟨c', o', hin', ho', hstep⟩ | ⟨c', hin', hreserved, -⟩
  · simp [hnone] at hin
  · obtain rfl : c' = c := Option.some.inj (hin'.symm.trans hin)
    rw [hstep, exec_instr, blockOf_of_operationOf ho', driveResult, hin]
  · obtain rfl : c' = c := Option.some.inj (hin'.symm.trans hin)
    simp [hreserved] at ho

/-- Settles O10: the presented command is on the input ports, so the step drives its block outputs. -/
theorem theMachineConforms : Obligations.TheMachineConforms := by
  intro c hop
  rw [answer, step_of_isOperation (present_input c State.reset) hop]

end Sys2Proof.Machine
end

section
/-! PROOFS. This hardware's patterns (00_scope.md R8) by their fields, and that they are those of a
conforming block (41_ieee_codec.md R94, R101). -/

namespace Sys2Proof.Machine

theorem hwDecNan_eq_packSingle (s : Sign) (m : BitVec 10) :
    hwDecNan s m = packSingle s 0xFF#8 (m ++ 0#13) :=
  BitVec.append_assoc ..

theorem hwEncNan_eq_packHalf (s : Sign) (m : BitVec 23) :
    hwEncNan s m = packHalf s 0x1F#5 0x200#10 :=
  packHalfMag_eq_packHalf s 0x7E00#15

/-- A nonzero half mantissa stays nonzero in the upper bits of the binary32 mantissa (R94). -/
theorem append_zeros_ne_zero {m : BitVec 10} (h : m ≠ 0#10) : m ++ 0#13 ≠ 0#23 := by
  intro hz
  have hupper : (m ++ 0#13).extractLsb' 13 10 = m := BitVec.extractLsb'_append_eq_left
  rw [hz] at hupper
  exact h hupper.symm

theorem hardware_conforming : hardware.Conforming where
  decNan_exponent s m _ := by
    change singleExp (hwDecNan s m) = _
    rw [hwDecNan_eq_packSingle, singleExp_packSingle]
  decNan_mantissa s m hm := by
    change singleMan (hwDecNan s m) ≠ _
    rw [hwDecNan_eq_packSingle, singleMan_packSingle]
    exact append_zeros_ne_zero hm
  decNan_sign s m _ := by
    change singleSign (hwDecNan s m) = _
    rw [hwDecNan_eq_packSingle, singleSign_packSingle]
  encNan_sign s m _ := by
    change halfSign (hwEncNan s m) = _
    rw [hwEncNan_eq_packHalf, halfSign_packHalf]
  encNan_exponent s m _ := by
    change halfExp (hwEncNan s m) = _
    rw [hwEncNan_eq_packHalf, halfExp_packHalf]
  encNan_mantissa s m _ := by
    change halfMan (hwEncNan s m) ≠ _
    rw [hwEncNan_eq_packHalf, halfMan_packHalf]
    decide

/-- Settles O27: R8's values are those of the definitions, and their fields meet R94 and R101. -/
theorem hardwareParametersConform : Obligations.HardwareParametersConform :=
  ⟨hardware_conforming, rfl, hwDecNan_eq_packSingle, fun _ _ => rfl, fun _ => rfl, fun _ _ => rfl⟩

end Sys2Proof.Machine
end

section
/-! PROOFS. What a step answers, by the presented command alone (10_state.md R23, R33), and the results on
the output ports (R22). -/

namespace Sys2Proof.Machine

/-- The ports once the presented command `c` has settled (R23): its result may be read. -/
def settled (c : Command) : State := { input := some c, output := some (blockOf c) }

theorem settled_inv {c : Command} (hop : isOperation c = true) : (settled c).Inv := by
  rintro o ⟨⟩
  exact ⟨c, rfl, hop, rfl⟩

/-- R151: with no result to read, the invariant of the ports asks nothing. -/
theorem inv_of_no_output {s : State} (h : s.output = none) : s.Inv := by
  intro o ho
  simp [h] at ho

theorem step_of_no_input {s : State} (hin : s.input = none) : step s = .fault .noCommand := by
  simp [step, hin]

theorem step_of_decode {s : State} {c : Command} {i : Instr} (hin : s.input = some c)
    (hdec : decode c = .ok i) : step s = exec i s := by
  simp [step, hin, hdec]

theorem operationOf_eq_none_of_not_isOperation {c : Command} (hop : ¬ isOperation c = true) :
    operationOf (opField c) = none := by
  simpa [isOperation] using hop

/-- R67: a reserved code is refused, whatever the ports showed. -/
theorem step_of_not_isOperation {s : State} {c : Command} (hin : s.input = some c)
    (hop : ¬ isOperation c = true) : step s = .refused (.reservedCode (opField c)) := by
  simp [step, hin, decode, operationOf_eq_none_of_not_isOperation hop]

/-- A step answers a next state only with an operation presented, and then its result has settled. -/
theorem step_eq_next {s t : State} (h : step s = .next t) :
    ∃ c, s.input = some c ∧ isOperation c = true ∧ t = settled c := by
  cases hin : s.input with
  | none => cases (step_of_no_input hin).symm.trans h
  | some c =>
    by_cases hop : isOperation c = true
    · exact ⟨c, rfl, hop, Host.Outcome.next.inj (h.symm.trans (step_of_isOperation hin hop))⟩
    · cases (step_of_not_isOperation hin hop).symm.trans h

/-- Settles O20: a step that answers a next state settles the presented operation's own result, so the
invariant of the state before it is not needed. -/
theorem stepKeepsThePortsInvariant : Obligations.StepKeepsThePortsInvariant := by
  intro s t _ h
  obtain ⟨c, -, hop, rfl⟩ := step_eq_next h
  exact settled_inv hop

/-- Settles O9: `blockOf` is the block function at the two fields of the command word. -/
theorem stepDrivesTheBlockFunction : Obligations.StepDrivesTheBlockFunction :=
  fun _ _ hin hop => step_of_isOperation hin hop

/-- Settles O18: with no command, with an operation and with a reserved code, what a step answers names
the inputs alone. -/
theorem resultsDoNotDependOnEarlierCommands : Obligations.ResultsDoNotDependOnEarlierCommands := by
  intro s s' hsame
  cases hin : s'.input with
  | none => rw [step_of_no_input hin, step_of_no_input (hsame.trans hin)]
  | some c =>
    by_cases hop : isOperation c = true
    · rw [step_of_isOperation hin hop, step_of_isOperation (hsame.trans hin) hop]
    · rw [step_of_not_isOperation hin hop, step_of_not_isOperation (hsame.trans hin) hop]

/-- R60, R62: the word of an instruction decodes to it. -/
@[simp] theorem decode_encode (i : Instr) : decode (encode i) = .ok i := by
  simp [decode, encode, instr_of_parts]

/-- Settles O8: no bit of the word is lost on the input ports (R60), and it decodes to the instruction. -/
theorem placedWordIsTheNextToRun : Obligations.PlacedWordIsTheNextToRun := by
  intro s i
  exact step_of_decode (tableCommand_toNat (encode i)) (decode_encode i)

/-- R67: the codes without a row in the opcode map are those it lists. -/
theorem operationOf_eq_none_iff (op : OpCode) : operationOf op = none ↔ op ∈ reservedCodes := by
  revert op; decide

theorem illegalOutput_iff (op : OpCode) : illegalOutput op = true ↔ op ∈ reservedCodes := by
  rw [illegalOutput, Option.isNone_iff_eq_none, operationOf_eq_none_iff]

theorem placeHalf_toNat_lt (h : Half) : (placeHalf h).toNat < 2 ^ 16 := by
  have := h.isLt
  simp only [placeHalf, BitVec.toNat_setWidth]
  omega

theorem placeSingle_toNat_lt (w : Single) : (placeSingle w).toNat < 2 ^ 32 := by
  have := w.isLt
  simp only [placeSingle, BitVec.toNat_setWidth]
  omega

/-- R65: `y` is extended with zeros from the result width. -/
theorem blockResult_toNat_lt (P : Params) (o : Operation) (a : Port) :
    (blockResult P (codeOf o) a).toNat < 2 ^ resultWidth o := by
  cases o with
  | singleToIeeeHalfValue | singleToAltHalfValue => exact placeHalf_toNat_lt _
  | ieeeHalfToSingleBits | ieeeHalfToSingleValue | altHalfToSingleBits | altHalfToSingleValue
  | bitsToSingleValue | singleValueToBits => exact placeSingle_toNat_lt _
  | bitsToDoubleValue | doubleValueToBits => exact a.isLt

/-- Settles O14: `illegal` reads the opcode map alone, and every result is placed by its width. -/
theorem outputPortsShowResultAndIllegal : Obligations.OutputPortsShowResultAndIllegal := by
  intro P op a
  refine ⟨illegalOutput_iff op, ?_⟩
  rintro o rfl
  exact blockResult_toNat_lt P o a

end Sys2Proof.Machine
end

section
/-! PROOFS. The host at the ports (10_state.md R32): what each of its moves leaves, and what a host that
keeps to the duty of 70_reset_and_hazards.md R151 reads. -/

namespace Sys2Proof.Machine

theorem sample_eq_next {s : State} {o : Output} (h : sample s = .next o) : s.output = some o := by
  cases hout : s.output with
  | none => cases (sample_of_no_output hout).symm.trans h
  | some o' => rw [Host.Outcome.next.inj ((sample_of_output hout).symm.trans h)]

/-- Settles O22: presenting leaves nothing to read, settling leaves the presented operation's result, and
a sample changes no port and reads what the invariant speaks of. -/
theorem hostMovesKeepThePortsInvariant : Obligations.HostMovesKeepThePortsInvariant := by
  intro m s t seen seen' hinv h
  cases m with
  | present c =>
    cases h
    exact ⟨inv_of_no_output (present_output c s), nofun⟩
  | settle =>
    obtain ⟨s', hstep, hnext⟩ := andThen_eq_next h
    cases hnext
    exact ⟨stepKeepsThePortsInvariant s t hinv hstep, nofun⟩
  | sample =>
    obtain ⟨o, hsample, hnext⟩ := andThen_eq_next h
    cases hnext
    obtain ⟨c, hin, -, rfl⟩ := hinv o (sample_eq_next hsample)
    exact ⟨hinv, fun _ => ⟨c, hin, rfl⟩⟩

/-- What the host knows of the ports is so. -/
def PortStatus.Describes : PortStatus → State → Prop
  | .idle, _ => True
  | .presented c, s => s.input = some c ∧ isOperation c = true
  | .valid c, s => s = settled c ∧ isOperation c = true

theorem runMoves_present (c : Command) (ms : List Move) (s : State) (seen : List Output) :
    runMoves (.present c :: ms) s seen = runMoves ms (present c s) seen := rfl

theorem runMoves_settle {s : State} {c : Command} (hin : s.input = some c)
    (hop : isOperation c = true) (ms : List Move) (seen : List Output) :
    runMoves (.settle :: ms) s seen = runMoves ms (settled c) seen := by
  simp [runMoves, runMove, step_of_isOperation hin hop, settled]

theorem runMoves_sample {s : State} {o : Output} (hout : s.output = some o) (ms : List Move)
    (seen : List Output) :
    runMoves (.sample :: ms) s seen = runMoves ms s (seen ++ [o]) := by
  simp [runMoves, runMove, sample_of_output hout]

/-- A host that knows the ports and keeps to its duty runs to the end and reads the block's results. -/
theorem runMoves_of_obeys (ms : List Move) :
    ∀ (st : PortStatus) (s : State) (seen : List Output), st.Describes s → obeys st ms = true →
      presentsOperationsOnly ms = true →
      ∃ t, runMoves ms s seen = .next (t, seen ++ expectedSamples st ms) := by
  induction ms with
  | nil =>
    intro st s seen _ _ _
    exact ⟨s, by simp [runMoves, expectedSamples]⟩
  | cons m ms ih =>
    intro st s seen hst hobeys hops
    cases m with
    | present c =>
      obtain ⟨hop, hrest⟩ : isOperation c = true ∧ presentsOperationsOnly ms = true := by
        simpa [presentsOperationsOnly] using hops
      rw [runMoves_present]
      have hobeys' : obeys (.presented c) ms = true := by simpa [obeys] using hobeys
      simpa [expectedSamples] using ih (.presented c) (present c s) seen ⟨rfl, hop⟩ hobeys' hrest
    | settle =>
      cases st with
      | idle => cases hobeys
      | presented c =>
        obtain ⟨hin, hop⟩ := hst
        rw [runMoves_settle hin hop]
        exact ih (.valid c) (settled c) seen ⟨rfl, hop⟩ hobeys hops
      | valid c =>
        obtain ⟨rfl, hop⟩ := hst
        rw [runMoves_settle rfl hop]
        exact ih (.valid c) (settled c) seen ⟨rfl, hop⟩ hobeys hops
    | sample =>
      cases st with
      | idle => cases hobeys
      | presented c => cases hobeys
      | valid c =>
        obtain ⟨rfl, hop⟩ := hst
        rw [runMoves_sample rfl]
        simpa [expectedSamples] using
          ih (.valid c) (settled c) (seen ++ [blockOf c]) ⟨rfl, hop⟩ hobeys hops

/-- Settles O24: a host that has presented nothing claims nothing of the ports, so any state will do. -/
theorem obedientHostReadsBlockResults : Obligations.ObedientHostReadsBlockResults :=
  fun ms hobeys hops s seen => runMoves_of_obeys ms .idle s seen trivial hobeys hops

end Sys2Proof.Machine
end

section
/-! PROOFS. The pipeline at every edge (10_state.md R31): its registers hold, newest first, what the
edges before have brought, so the outputs show the edge LATENCY back. -/

namespace Sys2Proof.Machine

/-- What the edge `k` before edge `t` has brought, nothing where that is before power-up. -/
def arrivalBefore (P : Params) (inputs : Nat → Option Command) (t k : Nat) : Option Arrival :=
  if k ≤ t then (inputs (t - k)).map (arrivalOf P) else none

@[simp] theorem arrivalBefore_zero (P : Params) (inputs : Nat → Option Command) (t : Nat) :
    arrivalBefore P inputs t 0 = (inputs t).map (arrivalOf P) := by
  simp [arrivalBefore]

@[simp] theorem arrivalBefore_succ_succ (P : Params) (inputs : Nat → Option Command) (t k : Nat) :
    arrivalBefore P inputs (t + 1) (k + 1) = arrivalBefore P inputs t k := by
  simp [arrivalBefore]

@[simp] theorem arrivalBefore_add (P : Params) (inputs : Nat → Option Command) (t k : Nat) :
    arrivalBefore P inputs (t + k) k = (inputs t).map (arrivalOf P) := by
  simp [arrivalBefore]

theorem arrivalBefore_of_lt (P : Params) (inputs : Nat → Option Command) {t k : Nat} (h : t < k) :
    arrivalBefore P inputs t k = none :=
  if_neg (Nat.not_le.2 h)

/-- The pipeline at edge `t` holds what the last LATENCY + 1 edges have brought, newest first. -/
theorem inFlight_after (P : Params) (inputs : Nat → Option Command) (t : Nat) :
    (Pipe.after P inputs t).inFlight P (inputs t) =
      (List.range (P.latency + 1)).map (arrivalBefore P inputs t) := by
  induction t with
  | zero =>
    have hempty : ∀ k, arrivalBefore P inputs 0 (k + 1) = none := fun k =>
      arrivalBefore_of_lt P inputs k.succ_pos
    simp [Pipe.inFlight, Pipe.after, Pipe.powerUp, List.range_succ_eq_map, Function.comp_def, hempty]
  | succ t ih =>
    have hstages : (Pipe.after P inputs (t + 1)).stages =
        (List.range P.latency).map (arrivalBefore P inputs t) := by
      rw [Pipe.after, Pipe.edge, ih, List.range_succ, List.map_append]
      exact List.dropLast_concat
    simp [Pipe.inFlight, hstages, List.range_succ_eq_map, Function.comp_def]

/-- What the outputs show at edge `t` is what edge `t - LATENCY` has brought. -/
theorem visible_after (P : Params) (inputs : Nat → Option Command) (t : Nat) :
    (Pipe.after P inputs t).visible P (inputs t) = arrivalBefore P inputs t P.latency := by
  simp [Pipe.visible, inFlight_after, List.range_succ]

theorem sampleAt_of_lt_latency (P : Params) (inputs : Nat → Option Command) {t : Nat}
    (h : t < P.latency) : Pipe.sampleAt P inputs t = .fault .resultNotValid := by
  simp [Pipe.sampleAt, visible_after, arrivalBefore_of_lt P inputs h]

theorem sampleAt_add_latency_of_isOperation (P : Params) {inputs : Nat → Option Command} {t : Nat}
    {c : Command} (hin : inputs t = some c) (hop : isOperation c = true) :
    Pipe.sampleAt P inputs (t + P.latency) = .next (block P (opField c) (aField c)) := by
  simp [Pipe.sampleAt, visible_after, hin, hop]

/-- Settles O25: the edge LATENCY back is edge `t`, and before edge LATENCY there is none. -/
theorem pipelineDeliversAfterLatency : Obligations.PipelineDeliversAfterLatency := by
  refine ⟨fun P inputs t c hin hop => sampleAt_add_latency_of_isOperation P hin hop, ?_⟩
  intro P inputs t hlt o hnext
  cases (sampleAt_of_lt_latency P inputs hlt).symm.trans hnext

end Sys2Proof.Machine
end

section
/-! PROOFS. Atomicity and idempotency of a step (20_memory.md R46). -/

namespace Sys2Proof.Machine

/-- R46: presenting a settled operation again gives the same outputs. -/
theorem step_settled {c : Command} (hop : isOperation c = true) :
    step (settled c) = .next (settled c) :=
  step_of_isOperation rfl hop

/-- Settles O19: a step that answers settles the presented operation, and a settled state steps to
itself. -/
theorem stepIsAtomicAndIdempotent : Obligations.StepIsAtomicAndIdempotent := by
  intro s t h
  obtain ⟨c, hin, hop, rfl⟩ := step_eq_next h
  exact ⟨⟨c, hin, rfl⟩, step_settled hop⟩

end Sys2Proof.Machine
end

section
/-! PROOFS. Decoding and encoding of the command word (30_encoding.md R60 to R63), by the opcode map of
R62 read in its two directions. -/

namespace Sys2Proof.Machine

/-- Settles O2: the two fields of the word are the code and the whole operand, and the code is that of
one operation alone. -/
theorem decodeOfEncodeIsTheInstruction : Obligations.DecodeOfEncodeIsTheInstruction :=
  decode_encode

@[simp] theorem encode_instr (o : Operation) (a : Port) :
    encode (o.instr a) = makeCommand (codeOf o) a := by
  simp [encode]

/-- Settles O3: a word decodes by its two fields, and is made of them. -/
theorem encodeOfDecodeIsTheWord : Obligations.EncodeOfDecodeIsTheWord := by
  intro c i hdec
  rcases decode_cases c with ⟨o, ho, hok⟩ | ⟨-, herror⟩
  · obtain rfl : o.instr (aField c) = i := Except.ok.inj (hok.symm.trans hdec)
    rw [encode_instr, codeOf_of_operationOf ho, makeCommand_fields]
  · cases herror.symm.trans hdec

/-- R61: the row that `op` selects does not depend on `a`. -/
theorem decode_makeCommand_of_some {op : OpCode} {o : Operation} (h : operationOf op = some o)
    (a : Port) : decode (makeCommand op a) = .ok (o.instr a) := by
  simp [decode, h]

theorem decode_makeCommand_of_none {op : OpCode} (h : operationOf op = none) (a : Port) :
    decode (makeCommand op a) = .error (.reservedCode op) := by
  simp [decode, h]

theorem codeOf_eq_iff (o : Operation) (op : OpCode) : codeOf o = op ↔ operationOf op = some o :=
  ⟨fun h => h ▸ operationOf_codeOf o, codeOf_of_operationOf⟩

/-- Settles O4: the opcode map gives a code either one operation or none. -/
theorem everyCodeSelectsExactlyOneRow : Obligations.EveryCodeSelectsExactlyOneRow := by
  intro op
  simp only [codeOf_eq_iff, ne_eq, ← operationOf_eq_none_iff]
  cases hop : operationOf op with
  | some o =>
    exact .inl ⟨nofun, o, rfl, fun _ h => (Option.some.inj h).symm, decode_makeCommand_of_some hop⟩
  | none => exact .inr ⟨rfl, nofun, decode_makeCommand_of_none hop⟩

/-- Settles O5: the sixteen codes, one by one. -/
theorem codeStructureAgreesWithTheMap : Obligations.CodeStructureAgreesWithTheMap := by
  unfold Obligations.CodeStructureAgreesWithTheMap
  decide

theorem decodeTableWord_encode (i : Instr) : decodeTableWord 68 (encode i).toNat = some i := by
  simp [decodeTableWord, tableCommand_toNat]

theorem decodeTableWord_reserved {op : OpCode} (h : op ∈ reservedCodes) (a : Port) :
    decodeTableWord 68 (makeCommand op a).toNat = none := by
  simp [decodeTableWord, tableCommand_toNat,
    decode_makeCommand_of_none ((operationOf_eq_none_iff op).2 h)]

/-- Settles O1: each word is the encoding of its instruction, or is made of a reserved code. -/
theorem wordsOfTheOpcodeMapDecode : Obligations.WordsOfTheOpcodeMapDecode :=
  ⟨decodeTableWord_encode (.ieeeHalfToSingleBits 0x3C00#64),
    decodeTableWord_encode (.ieeeHalfToSingleValue 0x3FF#64),
    decodeTableWord_encode (.singleToIeeeHalfValue 0xFFFFFFFF3F800000#64),
    decodeTableWord_encode (.altHalfToSingleBits 0x123456789ABC7FFF#64),
    decodeTableWord_encode (.altHalfToSingleValue 0x400#64),
    decodeTableWord_encode (.singleToAltHalfValue 0x1BF800000#64),
    decodeTableWord_encode (.bitsToSingleValue 0x501502F9#64),
    decodeTableWord_encode (.singleValueToBits 0xDEADBEEF3F800000#64),
    decodeTableWord_encode (.bitsToDoubleValue 0xFFF8000000000001#64),
    decodeTableWord_encode (.doubleValueToBits 0xFFF8000000000001#64),
    decodeTableWord_reserved (op := 0x3#4) (by decide) 0x3C00#64,
    decodeTableWord_reserved (op := 0xF#4) (by decide) 0x3F800000#64⟩

end Sys2Proof.Machine
end

section
/-! PROOFS. Reserved codes are refused (30_encoding.md R67, 93_implementation_defined.md I8), by the
atomic step and by a pipeline of any LATENCY (10_state.md R31). -/

namespace Sys2Proof.Machine

theorem isOperation_iff_not_reserved (c : Command) :
    isOperation c = true ↔ opField c ∉ reservedCodes := by
  rw [← operationOf_eq_none_iff, isOperation, Option.isSome_iff_ne_none]

theorem not_isOperation_of_reserved {c : Command} (h : opField c ∈ reservedCodes) :
    ¬ isOperation c = true :=
  fun hop => (isOperation_iff_not_reserved c).1 hop h

/-- Settles O12: a code that is not reserved is that of an operation, and an operation completes. -/
theorem stepRefusesExactlyTheReservedCodes : Obligations.StepRefusesExactlyTheReservedCodes := by
  intro s c hin
  refine ⟨fun hres => step_of_not_isOperation hin (not_isOperation_of_reserved hres), fun hres => ?_⟩
  exact ⟨_, step_of_isOperation hin ((isOperation_iff_not_reserved c).2 hres)⟩

theorem sampleAt_add_latency_of_none (P : Params) {inputs : Nat → Option Command} {t : Nat}
    (hin : inputs t = none) : Pipe.sampleAt P inputs (t + P.latency) = .fault .resultNotValid := by
  simp [Pipe.sampleAt, visible_after, hin]

theorem sampleAt_add_latency_of_not_isOperation (P : Params) {inputs : Nat → Option Command} {t : Nat}
    {c : Command} (hin : inputs t = some c) (hop : ¬ isOperation c = true) :
    Pipe.sampleAt P inputs (t + P.latency) = .refused (.reservedCode (opField c)) := by
  simp [Pipe.sampleAt, visible_after, hin, Bool.eq_false_iff.2 hop]

/-- Settles O50: what edge `t` brought is what the outputs show LATENCY edges later. -/
theorem pipelineGivesNoValueWithoutAnOperation : Obligations.PipelineGivesNoValueWithoutAnOperation :=
  fun P _ _ => ⟨sampleAt_add_latency_of_none P, fun _ hin hres =>
    sampleAt_add_latency_of_not_isOperation P hin (not_isOperation_of_reserved hres)⟩

end Sys2Proof.Machine
end

section
/-! PROOFS. The operand slice and the result slice of each operation (30_encoding.md R64 to R66,
20_memory.md R45). -/

namespace Sys2Proof.Machine

theorem halfOperand_eq_of_agree {a a' : Port} (h : ∀ k, k < 16 → a.getLsbD k = a'.getLsbD k) :
    halfOperand a = halfOperand a' := by
  apply BitVec.eq_of_getLsbD_eq
  intro k hk
  simp [halfOperand, h k hk]

theorem singleOperand_eq_of_agree {a a' : Port} (h : ∀ k, k < 32 → a.getLsbD k = a'.getLsbD k) :
    singleOperand a = singleOperand a' := by
  apply BitVec.eq_of_getLsbD_eq
  intro k hk
  simp [singleOperand, h k hk]

/-- R64: `y` is computed from the operand slice alone. -/
theorem blockResult_eq_of_agree (P : Params) (o : Operation) {a a' : Port}
    (h : ∀ k, k < operandWidth o → a.getLsbD k = a'.getLsbD k) :
    blockResult P (codeOf o) a = blockResult P (codeOf o) a' := by
  cases o with
  | ieeeHalfToSingleBits | ieeeHalfToSingleValue =>
    exact congrArg (fun x => placeSingle (decodeIeee P x)) (halfOperand_eq_of_agree h)
  | altHalfToSingleBits | altHalfToSingleValue =>
    exact congrArg (fun x => placeSingle (decodeAlt x)) (halfOperand_eq_of_agree h)
  | singleToIeeeHalfValue =>
    exact congrArg (fun x => placeHalf (encodeIeee P x)) (singleOperand_eq_of_agree h)
  | singleToAltHalfValue =>
    exact congrArg (fun x => placeHalf (encodeAlt P x)) (singleOperand_eq_of_agree h)
  | bitsToSingleValue | singleValueToBits =>
    exact congrArg placeSingle (singleOperand_eq_of_agree h)
  | bitsToDoubleValue | doubleValueToBits => exact BitVec.eq_of_getLsbD_eq h

/-- Settles O15: the table's width is `operandWidth`, and both `exec` and the block function give the `y`
of the code. -/
theorem operandBitsAboveTheWidthAreIgnored : Obligations.OperandBitsAboveTheWidthAreIgnored := by
  intro o n htable a a' hagree
  obtain rfl : n = operandWidth o := by cases o <;> simpa [operandWidth] using htable
  refine ⟨fun s => ?_, fun P => ?_⟩
  · rw [exec_instr, exec_instr, blockResult_eq_of_agree hardware o hagree]
  · rw [block, block, blockResult_eq_of_agree P o hagree]

theorem drives_instr (o : Operation) (a : Port) (s : State) :
    Drives (o.instr a) s (blockResult hardware (codeOf o) a) :=
  exec_instr o a s

/-- Settles O16: the table's width is `resultWidth`, and a number below `2 ^ n` has no bit at or above
`n`. -/
theorem resultBitsAboveTheWidthAreZero : Obligations.ResultBitsAboveTheWidthAreZero := by
  intro o n htable a s
  obtain rfl : n = resultWidth o := by cases o <;> simpa [resultWidth] using htable
  refine ⟨_, drives_instr o a s, fun k hk => Nat.testBit_eq_false_of_lt ?_⟩
  calc (blockResult hardware (codeOf o) a).toNat
      < 2 ^ resultWidth o := blockResult_toNat_lt hardware o a
    _ ≤ 2 ^ k := Nat.pow_le_pow_right Nat.two_pos hk

/-- R95, C3: the bitcast to a value changes no bit. -/
theorem ieeeHalfToSingleValue_eq_bits (P : Params) (a : Port) :
    ieeeHalfToSingleValue P a = ieeeHalfToSingleBits P a := rfl

/-- R111, C3. -/
theorem altHalfToSingleValue_eq_bits (a : Port) :
    altHalfToSingleValue a = altHalfToSingleBits a := rfl

/-- Settles O17: the two forms drive the same `y`. -/
theorem valueFormsGiveTheBitsForms : Obligations.ValueFormsGiveTheBitsForms := fun a s =>
  ⟨congrArg (fun y => Host.Outcome.next (driveResult y s)) (ieeeHalfToSingleValue_eq_bits hardware a),
    congrArg (fun y => Host.Outcome.next (driveResult y s)) (altHalfToSingleValue_eq_bits a)⟩

end Sys2Proof.Machine
end

section
/-! PROOFS. Command sequences (30_encoding.md R69, 10_state.md R32): a well-formed line finds its operand
and its command completes. -/

namespace Sys2Proof.Machine

theorem blockOf_makeCommand (op : OpCode) (a : Port) :
    blockOf (makeCommand op a) = block hardware op a := by
  simp [blockOf]

theorem isOperation_makeCommand_codeOf (o : Operation) (a : Port) :
    isOperation (makeCommand (codeOf o) a) = true := by
  simp [isOperation]

/-- R32: an operation that the host presents, waits for and samples gives the block's outputs. -/
theorem issue_of_isOperation {c : Command} (hop : isOperation c = true) (s : State) :
    issue c s = .next (settled c, blockOf c) := by
  simp [issue, step_of_isOperation (present_input c s) hop, sample, settled]

/-- R69: a well-formed source of line `k` names something, once the `k` lines before it have results. -/
theorem exists_resolve_of_wellFormed {o : Operation} {ts : List Port} {src : Src}
    (h : src.wellFormed o ts.length = true) : ∃ a, resolve ts src = some a := by
  cases src with
  | literal v => exact ⟨_, rfl⟩
  | result j =>
    have hj : j < ts.length := by simpa [Src.wellFormed] using h
    exact ⟨_, List.getElem?_eq_getElem hj⟩
  | slice j hi lo =>
    obtain ⟨⟨hj, -⟩, -⟩ : (j < ts.length ∧ lo ≤ hi) ∧ hi < 64 := by simpa [Src.wellFormed] using h
    exact ⟨_, congrArg (Option.map _) (List.getElem?_eq_getElem hj)⟩

/-- A line that finds its operand adds the block's `y` for it to the results. -/
theorem runLine_of_resolve {l : Line} {ts : List Port} {a : Port} (h : resolve ts l.src = some a)
    (s : State) :
    runLine l { machine := s, results := ts } =
      .next { machine := settled (makeCommand (codeOf l.op) a),
              results := ts ++ [(block hardware (codeOf l.op) a).y] } := by
  simp [runLine, h, issue_of_isOperation (isOperation_makeCommand_codeOf l.op a), blockOf_makeCommand]

/-- From line `k` on, with the results of the `k` lines before it. -/
theorem runProgram_of_wellFormedFrom (ls : List Line) :
    ∀ (ts : List Port) (s : State), wellFormedFrom ts.length ls = true →
      ∃ ts' t, programResults ls ts = some ts' ∧ ts'.length = ts.length + ls.length ∧
        runProgram ls { machine := s, results := ts } = .next { machine := t, results := ts' } := by
  induction ls with
  | nil =>
    intro ts s _
    exact ⟨ts, s, rfl, rfl, rfl⟩
  | cons l ls ih =>
    intro ts s hwf
    obtain ⟨hl, hrest⟩ : l.src.wellFormed l.op ts.length = true ∧
        wellFormedFrom (ts.length + 1) ls = true := by
      simpa [wellFormedFrom, Line.wellFormed] using hwf
    obtain ⟨a, ha⟩ := exists_resolve_of_wellFormed hl
    obtain ⟨ts', t, hresults, hlength, hrun⟩ :=
      ih (ts ++ [(block hardware (codeOf l.op) a).y]) (settled (makeCommand (codeOf l.op) a))
        (by simpa using hrest)
    refine ⟨ts', t, ?_, ?_, ?_⟩
    · simpa [programResults, ha] using hresults
    · simp only [hlength, List.length_append, List.length_cons, List.length_nil]
      omega
    · simpa [runProgram, runLine_of_resolve ha] using hrun

/-- Settles O26: the whole sequence, with no line before it. -/
theorem writtenSequencesRunToBlockResults : Obligations.WrittenSequencesRunToBlockResults := by
  intro ls s hwf
  simpa using runProgram_of_wellFormedFrom ls [] s hwf

end Sys2Proof.Machine
end

section
/-! PROOFS. Reading a written command back (30_encoding.md R69, R70): its digits, its words, and the
whole text. -/

namespace Sys2Proof.Machine

theorem digitValue_hexDigit : ∀ d, d < 16 → digitValue 16 (hexDigit d) = some d := by
  decide

theorem readDigits_append {base acc n : Nat} {cs : List Char} (h : readDigits base acc cs = some n)
    (ds : List Char) : readDigits base acc (cs ++ ds) = readDigits base n ds := by
  induction cs generalizing acc with
  | nil =>
    obtain rfl : acc = n := Option.some.inj h
    rfl
  | cons c cs ih =>
    cases hv : digitValue base c with
    | none => simp [readDigits, hv] at h
    | some v =>
      simp only [readDigits, hv, List.cons_append] at h ⊢
      exact ih h

/-- The low `n` digits written, read after those of `acc`. -/
theorem readDigits_hexDigits (acc n v : Nat) :
    readDigits 16 acc (hexDigits n v) = some (acc * 16 ^ n + v % 16 ^ n) := by
  induction n generalizing v with
  | zero => simp [hexDigits, readDigits, Nat.mod_one]
  | succ n ih =>
    rw [hexDigits, readDigits_append (ih (v / 16))]
    simp only [readDigits, digitValue_hexDigit (v % 16) (Nat.mod_lt v (by decide)), Option.some.injEq]
    rw [Nat.pow_succ', Nat.mod_mul]
    ring

theorem readNumber_hexDigits {n v : Nat} (hn : 0 < n) (hv : v < 16 ^ n) :
    readNumber 16 (hexDigits n v) = some v := by
  have hread : readDigits 16 0 (hexDigits n v) = some v := by
    rw [readDigits_hexDigits, Nat.mod_eq_of_lt hv, Nat.zero_mul, Nat.zero_add]
  cases hds : hexDigits n v with
  | nil =>
    obtain ⟨m, rfl⟩ := Nat.exists_eq_succ_of_ne_zero hn.ne'
    simp [hexDigits] at hds
  | cons c cs => rwa [hds] at hread

/-- A character that a word may hold: no blank, and none that starts a comment (R69). -/
def isWordChar (c : Char) : Bool := c != ';' && c != ' '

theorem isWordChar_iff (c : Char) : isWordChar c = true ↔ c ≠ ';' ∧ c ≠ ' ' := by
  simp [isWordChar]

theorem wordsFrom_append {cs : List Char} (hcs : ∀ c ∈ cs, isWordChar c = true) (word rest : List Char) :
    wordsFrom word (cs ++ rest) = wordsFrom (word ++ cs) rest := by
  induction cs generalizing word with
  | nil => simp
  | cons c cs ih =>
    obtain ⟨hc, hrest⟩ := List.forall_mem_cons.1 hcs
    obtain ⟨hcomment, hblank⟩ := (isWordChar_iff c).1 hc
    simp [wordsFrom, hcomment, hblank, ih hrest]

theorem wordsFrom_blank (word rest : List Char) :
    wordsFrom word (' ' :: rest) = flush word (wordsFrom [] rest) := by
  simp [wordsFrom]

theorem flush_of_ne_nil {word : List Char} (h : word ≠ []) (rest : List (List Char)) :
    flush word rest = word :: rest := by
  cases word with
  | nil => exact absurd rfl h
  | cons c cs => rfl

/-- Two words with one blank between them. -/
theorem wordsFrom_two_words {m v : List Char} (hm : m ≠ []) (hv : v ≠ [])
    (hmchars : ∀ c ∈ m, isWordChar c = true) (hvchars : ∀ c ∈ v, isWordChar c = true) :
    wordsFrom [] (m ++ ' ' :: v) = [m, v] := by
  have hlast : wordsFrom [] v = [v] := by
    simpa [wordsFrom, flush_of_ne_nil hv] using wordsFrom_append hvchars [] []
  rw [wordsFrom_append hmchars, List.nil_append, wordsFrom_blank, hlast, flush_of_ne_nil hm]

theorem isWordChar_hexDigit : ∀ d, d < 16 → isWordChar (hexDigit d) = true := by
  decide

theorem isWordChar_of_mem_hexDigits {n v : Nat} : ∀ c ∈ hexDigits n v, isWordChar c = true := by
  induction n generalizing v with
  | zero => nofun
  | succ n ih =>
    intro c hc
    rcases List.mem_append.1 hc with hhigh | hlow
    · exact ih c hhigh
    · rw [List.mem_singleton.1 hlow]
      exact isWordChar_hexDigit (v % 16) (Nat.mod_lt v (by decide))

theorem mnemonic_ne_nil (o : Operation) : mnemonic o ≠ [] := by
  cases o <;> decide

theorem isWordChar_of_mem_mnemonic (o : Operation) : ∀ c ∈ mnemonic o, isWordChar c = true := by
  have hall : (mnemonic o).all isWordChar = true := by cases o <;> decide
  exact List.all_eq_true.1 hall

/-- R62: no two operations have one mnemonic. -/
@[simp] theorem operationNamed_mnemonic (o : Operation) : operationNamed (mnemonic o) = some o := by
  cases o <;> decide

/-- A literal with every digit of the operand width (R69). -/
def literalOf (o : Operation) (v : Nat) : List Char := '0' :: 'x' :: hexDigits (operandWidth o / 4) v

theorem writeCommand_eq (o : Operation) (v : Nat) :
    writeCommand o v = mnemonic o ++ ' ' :: literalOf o v := by
  simp [writeCommand, literalOf]

theorem isWordChar_of_mem_literalOf (o : Operation) (v : Nat) :
    ∀ c ∈ literalOf o v, isWordChar c = true :=
  List.forall_mem_cons.2 ⟨rfl, List.forall_mem_cons.2 ⟨rfl, isWordChar_of_mem_hexDigits⟩⟩

/-- Four bits to a digit: the operand width is a whole number of digits. -/
theorem sixteen_pow_digits (o : Operation) : 16 ^ (operandWidth o / 4) = 2 ^ operandWidth o := by
  have hwidth : 4 * (operandWidth o / 4) = operandWidth o := by cases o <;> rfl
  calc 16 ^ (operandWidth o / 4)
      = 2 ^ (4 * (operandWidth o / 4)) := (Nat.pow_mul 2 4 _).symm
    _ = 2 ^ operandWidth o := by rw [hwidth]

theorem readLiteral_literalOf {o : Operation} {v : Nat} (hv : v < 2 ^ operandWidth o) :
    readLiteral (literalOf o v) = some v := by
  have hdigits : 0 < operandWidth o / 4 := by cases o <;> decide
  exact readNumber_hexDigits hdigits ((sixteen_pow_digits o).symm ▸ hv)

theorem readCommand_writeCommand {o : Operation} {v : Nat} (hv : v < 2 ^ operandWidth o) :
    readCommand (writeCommand o v) = some (o, v) := by
  have hwords : wordsFrom [] (writeCommand o v) = [mnemonic o, literalOf o v] := by
    rw [writeCommand_eq]
    exact wordsFrom_two_words (mnemonic_ne_nil o) (List.cons_ne_nil _ _)
      (isWordChar_of_mem_mnemonic o) (isWordChar_of_mem_literalOf o v)
  simp [readCommand, hwords, readLiteral_literalOf hv, hv]

theorem wellFormed_instr_ofNat {o : Operation} {v : Nat} (hv : v < 2 ^ operandWidth o) :
    (o.instr (BitVec.ofNat 64 v)).wellFormed = true := by
  have hoperand : (BitVec.ofNat 64 v).toNat < 2 ^ operandWidth o :=
    (Nat.mod_le v (2 ^ 64)).trans_lt hv
  simpa [Instr.wellFormed] using hoperand

/-- Settles O6: the text's two words are the mnemonic and the literal, each read back as what it was
written from. -/
theorem writtenCommandIsReadBackAndEncoded : Obligations.WrittenCommandIsReadBackAndEncoded := by
  intro o v hv
  refine ⟨readCommand_writeCommand hv, ?_, wellFormed_instr_ofNat hv⟩
  simp [assemble, readCommand_writeCommand hv, encodeWritten, hv]

end Sys2Proof.Machine
end

section
/-! PROOFS. The bitcasts, bit by bit and there and back (40_bitcast.md R80 to R85). -/

namespace Sys2Proof.Machine

/-- R64, R65: a binary32 operand placed again is the port with its upper half cleared. -/
theorem getLsbD_placeSingle_singleOperand (a : Port) (k : Nat) :
    (placeSingle (singleOperand a)).getLsbD k = (decide (k < 32) && a.getLsbD k) := by
  by_cases hk : k < 32
  · have h64 : k < 64 := by omega
    simp [placeSingle, singleOperand, hk, h64]
  · simp [placeSingle, singleOperand, hk]

theorem getLsbD_bitsToSingleValue (a : Port) (k : Nat) :
    (bitsToSingleValue a).getLsbD k = (decide (k < 32) && a.getLsbD k) :=
  getLsbD_placeSingle_singleOperand a k

theorem getLsbD_singleValueToBits (a : Port) (k : Nat) :
    (singleValueToBits a).getLsbD k = (decide (k < 32) && a.getLsbD k) :=
  getLsbD_placeSingle_singleOperand a k

/-- R64, R65: a binary64 operand placed again is the whole port, which has no bit at or above 64. -/
theorem getLsbD_placeDouble_doubleOperand (a : Port) (k : Nat) :
    (placeDouble (doubleOperand a)).getLsbD k = (decide (k < 64) && a.getLsbD k) := by
  by_cases hk : k < 64
  · simp [placeDouble, doubleOperand, hk]
  · simp [placeDouble, doubleOperand, hk, BitVec.getLsbD_of_ge a k (Nat.not_lt.1 hk)]

theorem getLsbD_bitsToDoubleValue (a : Port) (k : Nat) :
    (bitsToDoubleValue a).getLsbD k = (decide (k < 64) && a.getLsbD k) :=
  getLsbD_placeDouble_doubleOperand a k

theorem getLsbD_doubleValueToBits (a : Port) (k : Nat) :
    (doubleValueToBits a).getLsbD k = (decide (k < 64) && a.getLsbD k) :=
  getLsbD_placeDouble_doubleOperand a k

/-- Settles O28: each operation of the table drives the `y` of its code, whose bits are those of the
operand slice placed again. -/
theorem bitcastsKeepEveryBit : Obligations.BitcastsKeepEveryBit := by
  intro o n htable a s
  refine ⟨_, drives_instr o a s, fun k => ?_⟩
  obtain ⟨rfl, rfl⟩ | ⟨rfl, rfl⟩ | ⟨rfl, rfl⟩ | ⟨rfl, rfl⟩ :
      (o = .bitsToSingleValue ∧ n = 32) ∨ (o = .singleValueToBits ∧ n = 32) ∨
        (o = .bitsToDoubleValue ∧ n = 64) ∨ (o = .doubleValueToBits ∧ n = 64) := by
    simpa using htable
  · exact getLsbD_bitsToSingleValue a k
  · exact getLsbD_singleValueToBits a k
  · exact getLsbD_bitsToDoubleValue a k
  · exact getLsbD_doubleValueToBits a k

/-- Two operations in a row, the second on the `y` of the first: each completes, and the second drives
the `y` of the composition. -/
theorem exec_then_drives {o o' : Operation} {a r : Port}
    (h : blockResult hardware (codeOf o') (blockResult hardware (codeOf o) a) = r) (s : State) :
    ∃ t y, exec (o.instr a) s = .next t ∧ t.output = some { y := y, illegal := false } ∧
      Drives (o'.instr y) t r :=
  ⟨_, _, exec_instr o a s, driveResult_output _ s, h ▸ drives_instr o' _ _⟩

/-- R85, binary32: the first bitcast's `y` holds the pattern in its low half, where the second reads it. -/
theorem singleValueToBits_bitsToSingleValue (b : Single) :
    singleValueToBits (bitsToSingleValue (placeSingle b)) = placeSingle b := by
  simp [singleValueToBits, bitsToSingleValue, bitcastSingle]

/-- R85, binary64: both bitcasts hand over the whole port. -/
theorem doubleValueToBits_bitsToDoubleValue (d : Port) :
    doubleValueToBits (bitsToDoubleValue d) = d := rfl

/-- Settles O29: the two bitcasts of a width, in a row, compose to the identity. -/
theorem bitcastRoundTripsAreTheIdentity : Obligations.BitcastRoundTripsAreTheIdentity :=
  ⟨fun b => exec_then_drives (o := .bitsToSingleValue) (o' := .singleValueToBits)
      (singleValueToBits_bitsToSingleValue b),
    fun d => exec_then_drives (o := .bitsToDoubleValue) (o' := .doubleValueToBits)
      (doubleValueToBits_bitsToDoubleValue d)⟩

end Sys2Proof.Machine
end

section
/-! PROOFS. Halves by the fifteen bits below the sign: the code of a magnitude, its value as a strictly
monotone function, and the classes of 00_scope.md R13 by the fields. -/

namespace Sys2Proof.Machine

/-- The fifteen bits of a half below its sign, as a number: halves are ordered by it (R104). -/
def halfCode (h : Half) : Nat := (halfExp h).toNat * 1024 + (halfMan h).toNat

/-- The magnitude that code `c` stands for, in units of 2^-24. It goes on above exponent field 31, where
an encode has not clamped yet. -/
def codeUnits (c : Nat) : Nat :=
  if c < 1024 then c else (1024 + c % 1024) * 2 ^ (c / 1024 - 1)

theorem halfUnits_eq_codeUnits (h : Half) : halfUnits h = codeUnits (halfCode h) := by
  have hm := (halfMan h).isLt
  rw [halfUnits, codeUnits, halfCode]
  by_cases he : halfExp h = 0#5
  · simp [he, hm]
  · have hpos : (halfExp h).toNat ≠ 0 := fun h0 => he (BitVec.eq_of_toNat_eq h0)
    rw [if_neg he, if_neg (by omega)]
    congr 2 <;> omega

theorem halfCode_eq_toNat {h : Half} (hs : halfSign h = 0#1) : halfCode h = h.toNat := by
  have := half_toNat h
  rw [hs] at this
  simp [halfCode, this]

theorem halfCode_packHalfMag (s : Sign) (mag : BitVec 15) : halfCode (packHalfMag s mag) = mag.toNat := by
  rw [halfCode, halfExp_packHalfMag, halfMan_packHalfMag]
  omega

/-- The fifteen bits below the sign, from numbers for the two fields. -/
theorem packHalfMag_ofNat (s : Sign) (e : Nat) {m : Nat} (hm : m < 1024) :
    packHalfMag s (BitVec.ofNat 15 (e * 1024 + m)) = packHalf s (BitVec.ofNat 5 e) (BitVec.ofNat 10 m) := by
  rw [packHalfMag_eq_packHalf]
  congr 1 <;> apply BitVec.eq_of_toNat_eq <;>
    simp only [BitVec.extractLsb'_toNat, BitVec.toNat_ofNat, Nat.shiftRight_eq_div_pow] <;> omega

/-- A half is packed from its sign and its code. -/
theorem packHalfMag_halfCode (h : Half) : packHalfMag (halfSign h) (BitVec.ofNat 15 (halfCode h)) = h := by
  rw [halfCode, packHalfMag_ofNat _ _ (halfMan h).isLt, BitVec.ofNat_toNat, BitVec.ofNat_toNat,
    BitVec.setWidth_eq, BitVec.setWidth_eq, packHalf_fields]

/-- Inside a binade, and at both its ends, the code counts units of `2 ^ b`. Binade 0 reaches down to
zero: the subnormals and the first normal binade have the same unit. -/
theorem codeUnits_binade {b k : Nat} (hlow : b = 0 ∨ 1024 ≤ k) (hk : k ≤ 2048) :
    codeUnits (b * 1024 + k) = k * 2 ^ b := by
  rcases Nat.lt_or_ge k 1024 with hsub | hnorm
  · obtain rfl : b = 0 := by omega
    simp [codeUnits, hsub]
  · rw [codeUnits, if_neg (by omega)]
    rcases Nat.lt_or_eq_of_le hk with hlt | rfl
    · rw [show (b * 1024 + k) % 1024 = k - 1024 by omega, show (b * 1024 + k) / 1024 - 1 = b by omega,
        Nat.add_sub_cancel' hnorm]
    · rw [show (b * 1024 + 2048) % 1024 = 0 by omega,
        show (b * 1024 + 2048) / 1024 - 1 = b + 1 by omega, Nat.pow_succ]
      ring

theorem exists_binade (c : Nat) : ∃ b k, c = b * 1024 + k ∧ (b = 0 ∨ 1024 ≤ k) ∧ k < 2048 := by
  rcases Nat.lt_or_ge c 1024 with h | h
  · exact ⟨0, c, by omega, .inl rfl, by omega⟩
  · exact ⟨c / 1024 - 1, 1024 + c % 1024, by omega, .inr (by omega), by omega⟩

theorem codeUnits_strictMono : StrictMono codeUnits := by
  refine strictMono_nat_of_lt_succ fun c => ?_
  obtain ⟨b, k, rfl, hlow, hk⟩ := exists_binade c
  rw [Nat.add_assoc, codeUnits_binade hlow hk.le, codeUnits_binade (by omega) hk]
  exact Nat.mul_lt_mul_of_pos_right k.lt_succ_self (Nat.two_pow_pos b)

theorem ieeeFinite_iff (h : Half) : ieeeFinite h ↔ halfExp h ≠ 31#5 := by
  unfold ieeeFinite ieeeClass
  split_ifs with h0 hm h31 hm <;> simp [FloatClass.isFinite, *]

theorem ieeeClass_eq_infinity_iff (h : Half) :
    ieeeClass h = .infinity ↔ halfExp h = 31#5 ∧ halfMan h = 0#10 := by
  unfold ieeeClass
  split_ifs with h0 hm h31 hm <;> simp [*]

theorem ieeeClass_eq_nan_iff (h : Half) :
    ieeeClass h = .nan ↔ halfExp h = 31#5 ∧ halfMan h ≠ 0#10 := by
  unfold ieeeClass
  split_ifs with h0 hm h31 hm <;> simp [*]

theorem singleFinite_iff (w : Single) : singleFinite w ↔ singleExp w ≠ 255#8 := by
  unfold singleFinite singleClass
  split_ifs with h0 hm h255 hm <;> simp [FloatClass.isFinite, *]

theorem singleClass_eq_infinity_iff (w : Single) :
    singleClass w = .infinity ↔ singleExp w = 255#8 ∧ singleMan w = 0#23 := by
  unfold singleClass
  split_ifs with h0 hm h255 hm <;> simp [*]

theorem singleClass_eq_nan_iff (w : Single) :
    singleClass w = .nan ↔ singleExp w = 255#8 ∧ singleMan w ≠ 0#23 := by
  unfold singleClass
  split_ifs with h0 hm h255 hm <;> simp [*]

theorem singleExp_eq_zero_of_subnormal {w : Single} (h : singleClass w = .subnormal) :
    singleExp w = 0#8 := by
  by_contra he
  rw [singleClass, if_neg he] at h
  split_ifs at h

end Sys2Proof.Machine
end

section
/-! PROOFS. IEEE decode (41_ieee_codec.md R91 to R95, R104): its cases by the fields of the half, and that
it keeps sign and value. -/

namespace Sys2Proof.Machine

/-- R10: the detector finds the one position that has a one and no one above it. -/
theorem lod10_eq_some_iff (m : BitVec 10) (p : Nat) :
    lod10 m = some p ↔ m.getLsbD p = true ∧ ∀ j, p < j → m.getLsbD j = false := by
  have spec : ∀ q, lod10 m = some q → m.getLsbD q = true ∧ ∀ j, q < j → m.getLsbD j = false := by
    intro q hq
    obtain ⟨-, hbit, habove⟩ := leadingOneBelow_spec m 10 q hq
    refine ⟨hbit, fun j hj => ?_⟩
    by_cases h10 : j < 10
    · exact habove j hj h10
    · exact BitVec.getLsbD_of_ge m j (by omega)
  refine ⟨spec p, fun ⟨hbit, habove⟩ => ?_⟩
  cases hq : lod10 m with
  | none => simp [(lod10_eq_none_iff m).1 hq] at hbit
  | some q =>
    obtain ⟨hqbit, hqabove⟩ := spec q hq
    rcases Nat.lt_trichotomy p q with hlt | rfl | hlt
    · simp [habove q hlt] at hqbit
    · rfl
    · simp [hqabove p hlt] at hbit

/-- R93, the zero case. -/
theorem expandSmall_zero (s : Sign) : expandSmall s 0#10 = packSingle s 0#8 0#23 := by
  revert s; decide

/-- R92: the shift moves the leading one to bit 23, and the mantissa is what stays below it. -/
theorem expandSmall_of_leading_one (s : Sign) {m : BitVec 10} {p : Nat} (hbit : m.getLsbD p = true)
    (habove : ∀ j, p < j → m.getLsbD j = false) :
    expandSmall s m = packSingle s (BitVec.ofNat 8 (p + 103)) (BitVec.ofNat 23 (m.toNat * 2 ^ (23 - p))) := by
  have hman : (m.setWidth 24 <<< (23 - p)).extractLsb' 0 23 = BitVec.ofNat 23 (m.toNat * 2 ^ (23 - p)) := by
    apply BitVec.eq_of_toNat_eq
    simp [Nat.shiftLeft_eq]
  rw [expandSmall, (lod10_eq_some_iff m p).2 ⟨hbit, habove⟩]
  simp only [expandSubnormal, hman, packSingle]

/-- R93, the normal case. -/
theorem expandNormal_eq_packSingle (s : Sign) (e : BitVec 5) (m : BitVec 10) :
    expandNormal s e m = packSingle s (BitVec.ofNat 8 (e.toNat + 112)) (m ++ 0#13) :=
  BitVec.append_assoc ..

/-- The magnitude of a packed normal or subnormal, by numbers for its fields. -/
theorem singleUnits_packSingle (s : Sign) {e m : Nat} (he : e < 255) (hm : m < 2 ^ 23) :
    singleUnits (packSingle s (BitVec.ofNat 8 (e + 1)) (BitVec.ofNat 23 m)) = (2 ^ 23 + m) * 2 ^ e := by
  have hexp : (BitVec.ofNat 8 (e + 1)).toNat = e + 1 := Nat.mod_eq_of_lt (by omega)
  have hne : BitVec.ofNat 8 (e + 1) ≠ 0#8 := fun h => by simp [h] at hexp
  rw [singleUnits, singleExp_packSingle, singleMan_packSingle, if_neg hne, hexp, BitVec.toNat_ofNat,
    Nat.mod_eq_of_lt hm, Nat.add_sub_cancel]

theorem exists_leading_one {m : BitVec 10} (h : m ≠ 0#10) :
    ∃ p, p ≤ 9 ∧ m.getLsbD p = true ∧ ∀ j, p < j → m.getLsbD j = false := by
  cases hp : lod10 m with
  | none => exact absurd ((lod10_eq_none_iff m).1 hp) h
  | some p =>
    obtain ⟨hlt, -, -⟩ := leadingOneBelow_spec m 10 p hp
    exact ⟨p, by omega, (lod10_eq_some_iff m p).1 hp⟩

theorem singleUnits_expandSmall (s : Sign) (m : BitVec 10) :
    singleUnits (expandSmall s m) = m.toNat * 2 ^ 125 := by
  by_cases hm : m = 0#10
  · subst hm
    rw [expandSmall_zero]
    simp [singleUnits]
  · obtain ⟨p, hp, hbit, habove⟩ := exists_leading_one hm
    have hlow : 2 ^ p ≤ m.toNat := Nat.ge_two_pow_of_testBit hbit
    have hhigh : m.toNat < 2 ^ (p + 1) := Nat.lt_pow_two_of_testBit _ fun j hj => habove j hj
    -- the shifted significand lies in the binade of `2 ^ 23`
    have hshift : 2 ^ p * 2 ^ (23 - p) = 2 ^ 23 := by rw [← Nat.pow_add]; congr 1; omega
    have h1 : 2 ^ 23 ≤ m.toNat * 2 ^ (23 - p) := hshift ▸ Nat.mul_le_mul_right _ hlow
    have h2 : m.toNat * 2 ^ (23 - p) < 2 ^ 24 := by
      calc m.toNat * 2 ^ (23 - p) < 2 ^ (p + 1) * 2 ^ (23 - p) :=
            Nat.mul_lt_mul_of_pos_right hhigh (Nat.two_pow_pos _)
        _ = 2 ^ 24 := by rw [← Nat.pow_add]; congr 1; omega
    have hmod : BitVec.ofNat 23 (m.toNat * 2 ^ (23 - p)) =
        BitVec.ofNat 23 (m.toNat * 2 ^ (23 - p) - 2 ^ 23) := by
      apply BitVec.eq_of_toNat_eq
      simp only [BitVec.toNat_ofNat]
      omega
    rw [expandSmall_of_leading_one s hbit habove, hmod,
      singleUnits_packSingle (e := p + 102) s (by omega) (by omega), Nat.add_sub_cancel' h1, Nat.mul_assoc,
      ← Nat.pow_add]
    congr 2
    omega

theorem append_zeros_eq_ofNat (m : BitVec 10) : m ++ 0#13 = BitVec.ofNat 23 (m.toNat * 2 ^ 13) := by
  apply BitVec.eq_of_toNat_eq
  have hm := m.isLt
  rw [BitVec.toNat_append, BitVec.toNat_ofNat, BitVec.toNat_ofNat, Nat.shiftLeft_eq, Nat.zero_mod, Nat.or_zero]
  omega

theorem singleUnits_expandNormal (s : Sign) {e : BitVec 5} (he : e ≠ 0#5) (m : BitVec 10) :
    singleUnits (expandNormal s e m) = (1024 + m.toNat) * 2 ^ (e.toNat - 1) * 2 ^ 125 := by
  have hm := m.isLt
  have he32 := e.isLt
  have hpos : e.toNat ≠ 0 := fun h => he (BitVec.eq_of_toNat_eq h)
  obtain ⟨k, hk⟩ := Nat.exists_eq_succ_of_ne_zero hpos
  rw [expandNormal_eq_packSingle, append_zeros_eq_ofNat, hk,
    show k.succ + 112 = k + 112 + 1 by omega, singleUnits_packSingle s (by omega) (by omega)]
  rw [Nat.succ_sub_one, Nat.pow_add]
  ring

/-! The two forms drive the decode of the operand slice (R93, R95), and encode the encode of it (R98). -/

theorem drives_ieeeHalfToSingleBits (a : Port) (s : State) :
    Drives (.ieeeHalfToSingleBits a) s (placeSingle (decodeIeee hardware (halfOperand a))) := rfl

theorem drives_ieeeHalfToSingleValue (a : Port) (s : State) :
    Drives (.ieeeHalfToSingleValue a) s (placeSingle (decodeIeee hardware (halfOperand a))) := rfl

section
variable (P : Params) {h : Half}

theorem decodeIeee_small (he : halfExp h = 0#5) :
    decodeIeee P h = expandSmall (halfSign h) (halfMan h) := by
  simp [decodeIeee, he]

theorem decodeIeee_infinity (he : halfExp h = 31#5) (hm : halfMan h = 0#10) :
    decodeIeee P h = packSingle (halfSign h) 0xFF#8 0#23 := by
  simp [decodeIeee, he, hm, packSingle]

theorem decodeIeee_nan (he : halfExp h = 31#5) (hm : halfMan h ≠ 0#10) :
    decodeIeee P h = P.decNan (halfSign h) (halfMan h) := by
  simp [decodeIeee, he, hm]

theorem decodeIeee_normal (he0 : halfExp h ≠ 0#5) (he31 : halfExp h ≠ 31#5) :
    decodeIeee P h = expandNormal (halfSign h) (halfExp h) (halfMan h) := by
  simp [decodeIeee, he0, he31]

end

/-- This hardware's decode of a NaN (R94). -/
theorem decodeIeee_hardware_nan {h : Half} (he : halfExp h = 31#5) (hm : halfMan h ≠ 0#10) :
    decodeIeee hardware h = packSingle (halfSign h) 0xFF#8 (halfMan h ++ 0#13) :=
  (decodeIeee_nan hardware he hm).trans (hwDecNan_eq_packSingle _ _)

/-- Settles O30: the decode of the operand slice, case by case; the premises on `p` are those of the
leading-one detector. -/
theorem ieeeDecodeFollowsItsCases : Obligations.IeeeDecodeFollowsItsCases := by
  intro a s
  refine ⟨_, drives_ieeeHalfToSingleBits a s, drives_ieeeHalfToSingleValue a s,
    fun he hm => ?_, fun he p _ hbit habove => ?_, fun he hm => decodeIeee_infinity _ he hm,
    fun he hm => decodeIeee_hardware_nan he hm, fun hlow hhigh => ?_⟩
  · rw [decodeIeee_small _ he, hm, expandSmall_zero]
  · rw [decodeIeee_small _ he, expandSmall_of_leading_one _ hbit habove]
  · rw [decodeIeee_normal _ (fun h0 => by simp [h0] at hlow) (fun h31 => by simp [h31] at hhigh),
      expandNormal_eq_packSingle]

theorem ofNat_ne_255 {n : Nat} (h : n < 255) : BitVec.ofNat 8 n ≠ 255#8 := by
  intro heq
  have hnat := congrArg BitVec.toNat heq
  rw [BitVec.toNat_ofNat, BitVec.toNat_ofNat] at hnat
  omega

/-- R93: zeros and subnormals keep their sign and stay finite, and so do normals. -/
theorem expandSmall_fields (s : Sign) (m : BitVec 10) :
    singleSign (expandSmall s m) = s ∧ singleExp (expandSmall s m) ≠ 255#8 := by
  by_cases hm : m = 0#10
  · rw [hm, expandSmall_zero]
    simp
  · obtain ⟨p, hp, hbit, habove⟩ := exists_leading_one hm
    rw [expandSmall_of_leading_one s hbit habove, singleSign_packSingle, singleExp_packSingle]
    exact ⟨rfl, ofNat_ne_255 (by omega)⟩

theorem expandNormal_fields (s : Sign) (e : BitVec 5) (m : BitVec 10) :
    singleSign (expandNormal s e m) = s ∧ singleExp (expandNormal s e m) ≠ 255#8 := by
  have he := e.isLt
  rw [expandNormal_eq_packSingle, singleSign_packSingle, singleExp_packSingle]
  exact ⟨rfl, ofNat_ne_255 (by omega)⟩

/-- R91 on the bits: the decode of a finite half has its sign, its magnitude and a finite exponent field. -/
theorem decodeIeee_finite (P : Params) {h : Half} (he : halfExp h ≠ 31#5) :
    singleSign (decodeIeee P h) = halfSign h ∧ singleExp (decodeIeee P h) ≠ 255#8 ∧
      singleUnits (decodeIeee P h) = halfUnits h * 2 ^ 125 := by
  by_cases h0 : halfExp h = 0#5
  · obtain ⟨hsign, hexp⟩ := expandSmall_fields (halfSign h) (halfMan h)
    rw [decodeIeee_small P h0, halfUnits, if_pos h0]
    exact ⟨hsign, hexp, singleUnits_expandSmall _ _⟩
  · obtain ⟨hsign, hexp⟩ := expandNormal_fields (halfSign h) (halfExp h) (halfMan h)
    rw [decodeIeee_normal P h0 he, halfUnits, if_neg h0]
    exact ⟨hsign, hexp, singleUnits_expandNormal _ h0 _⟩

/-- Same sign and same magnitude, counted in units of 2^-149 and 2^-24: same value (R14). -/
theorem singleValue_eq_halfValue {w : Single} {h : Half} (hsign : singleSign w = halfSign h)
    (hunits : singleUnits w = halfUnits h * 2 ^ 125) : singleValue w = halfValue h := by
  rw [singleValue, halfValue, hsign, singleMagnitude_eq_units, halfMagnitude_eq_units, hunits]
  push_cast
  rw [mul_assoc (halfUnits h : ℚ)]
  norm_num

theorem singleValue_decodeIeee (P : Params) {h : Half} (he : halfExp h ≠ 31#5) :
    singleValue (decodeIeee P h) = halfValue h := by
  obtain ⟨hsign, -, hunits⟩ := decodeIeee_finite P he
  exact singleValue_eq_halfValue hsign hunits

/-- R94: what a conforming block gives for a half NaN. -/
theorem decodeIeee_nan_fields {P : Params} (hP : P.Conforming) {h : Half} (hnan : ieeeClass h = .nan) :
    singleClass (decodeIeee P h) = .nan ∧ singleSign (decodeIeee P h) = halfSign h := by
  obtain ⟨he, hm⟩ := (ieeeClass_eq_nan_iff h).1 hnan
  rw [decodeIeee_nan P he hm]
  exact ⟨(singleClass_eq_nan_iff _).2 ⟨hP.decNan_exponent _ _ hm, hP.decNan_mantissa _ _ hm⟩,
    hP.decNan_sign _ _ hm⟩

theorem decodeIeee_infinity_fields (P : Params) {h : Half} (hinf : ieeeClass h = .infinity) :
    singleClass (decodeIeee P h) = .infinity ∧ singleSign (decodeIeee P h) = halfSign h := by
  obtain ⟨he, hm⟩ := (ieeeClass_eq_infinity_iff h).1 hinf
  rw [decodeIeee_infinity P he hm, singleClass_eq_infinity_iff]
  simp

/-- R91, R94: decode keeps the sign of every half. -/
theorem singleSign_decodeIeee {P : Params} (hP : P.Conforming) (h : Half) :
    singleSign (decodeIeee P h) = halfSign h := by
  by_cases he : halfExp h = 31#5
  · by_cases hm : halfMan h = 0#10
    · exact (decodeIeee_infinity_fields P ((ieeeClass_eq_infinity_iff h).2 ⟨he, hm⟩)).2
    · exact (decodeIeee_nan_fields hP ((ieeeClass_eq_nan_iff h).2 ⟨he, hm⟩)).2
  · exact (decodeIeee_finite P he).1

/-- Settles O31: the decode of the operand slice, on this hardware's conforming parameters. -/
theorem ieeeDecodeIsExact : Obligations.IeeeDecodeIsExact := by
  intro a s
  refine ⟨_, drives_ieeeHalfToSingleBits a s, singleSign_decodeIeee hardware_conforming _,
    fun hfin => ?_, fun hinf => (decodeIeee_infinity_fields _ hinf).1,
    fun hnan => (decodeIeee_nan_fields hardware_conforming hnan).1⟩
  have he := (ieeeFinite_iff _).1 hfin
  exact ⟨(singleFinite_iff _).2 (decodeIeee_finite _ he).2.1, singleValue_decodeIeee _ he⟩

/-- Settles O32: R94's constraints on DEC_NAN, and this hardware's pattern. -/
theorem ieeeDecodeKeepsNanAndSign : Obligations.IeeeDecodeKeepsNanAndSign := by
  refine ⟨fun P h hP hnan => decodeIeee_nan_fields hP hnan, fun a s hnan => ?_⟩
  obtain ⟨he, hm⟩ := (ieeeClass_eq_nan_iff _).1 hnan
  rw [← decodeIeee_hardware_nan he hm]
  exact drives_ieeeHalfToSingleBits a s

theorem halfValue_lt_of_toNat_lt {h₁ h₂ : Half} (hs₁ : halfSign h₁ = 0#1) (hs₂ : halfSign h₂ = 0#1)
    (hlt : h₁.toNat < h₂.toNat) : halfValue h₁ < halfValue h₂ := by
  rw [← halfCode_eq_toNat hs₁, ← halfCode_eq_toNat hs₂] at hlt
  have hunits : (codeUnits (halfCode h₁) : ℚ) < codeUnits (halfCode h₂) :=
    Nat.cast_lt.2 (codeUnits_strictMono hlt)
  simp only [halfValue, hs₁, hs₂, halfMagnitude_eq_units, halfUnits_eq_codeUnits]
  have hfactor : signFactor 0#1 = 1 := rfl
  rw [hfactor, one_mul, one_mul]
  exact mul_lt_mul_of_pos_right hunits (by positivity)

/-- Settles O33: decode is exact, and the value of a non-negative half is strictly monotone in its
code. -/
theorem ieeeDecodeIsStrictlyMonotone : Obligations.IeeeDecodeIsStrictlyMonotone := by
  intro h₁ h₂ s hs₁ hs₂ hfin₁ hfin₂ hlt
  refine ⟨_, _, drives_ieeeHalfToSingleValue _ s, drives_ieeeHalfToSingleValue _ s, ?_⟩
  rw [halfOperand_placeHalf, halfOperand_placeHalf, singleValue_decodeIeee _ ((ieeeFinite_iff _).1 hfin₁),
    singleValue_decodeIeee _ ((ieeeFinite_iff _).1 hfin₂)]
  exact halfValue_lt_of_toNat_lt hs₁ hs₂ hlt

end Sys2Proof.Machine
end

section
/-! PROOFS. The rounding unit (41_ieee_codec.md R96, R97) as division rounded to nearest, ties to even. -/

namespace Sys2Proof.Machine

/-- `r` is `x / d` rounded to nearest, ties to even. -/
def RoundsTo (x d r : Nat) : Prop :=
  (2 * x ≤ 2 * r * d + d ∧ 2 * r * d ≤ 2 * x + d) ∧
    (2 * x = 2 * r * d + d ∨ 2 * r * d = 2 * x + d → r % 2 = 0)

/-- A quotient of larger numbers in the same ratio rounds alike. -/
theorem RoundsTo.mul_right {x d r : Nat} (h : RoundsTo x d r) {k : Nat} (hk : 0 < k) :
    RoundsTo (x * k) (d * k) r := by
  obtain ⟨⟨hup, hdown⟩, heven⟩ := h
  have hx : 2 * (x * k) = 2 * x * k := by ring
  have hr : 2 * r * (d * k) = 2 * r * d * k := by ring
  rw [RoundsTo, hx, hr, ← Nat.add_mul, ← Nat.add_mul]
  refine ⟨⟨Nat.mul_le_mul_right k hup, Nat.mul_le_mul_right k hdown⟩, fun htie => heven ?_⟩
  exact htie.imp (Nat.eq_of_mul_eq_mul_right hk) (Nat.eq_of_mul_eq_mul_right hk)

theorem roundsTo_zero {x d : Nat} (h : 2 * x ≤ d) : RoundsTo x d 0 :=
  ⟨⟨by omega, by omega⟩, fun _ => rfl⟩

/-- The three parts of a significand: kept bits, guard, and the bits below the guard. -/
theorem toNat_eq_ru_parts (sig : BitVec 24) (n : Nat) :
    sig.toNat = 2 * (ruKept sig (n + 1) * 2 ^ n) + (ruGuard sig (n + 1)).toNat * 2 ^ n +
      sig.toNat % 2 ^ n := by
  have hguard : (ruGuard sig (n + 1)).toNat = sig.toNat / 2 ^ n % 2 := Nat.toNat_testBit _ _
  have hkept : ruKept sig (n + 1) = sig.toNat / 2 ^ n / 2 := by
    rw [ruKept_eq_div, Nat.pow_succ, Nat.div_div_eq_div_mul]
  calc sig.toNat = sig.toNat / 2 ^ n * 2 ^ n + sig.toNat % 2 ^ n := (Nat.div_add_mod' _ _).symm
    _ = (2 * (sig.toNat / 2 ^ n / 2) + sig.toNat / 2 ^ n % 2) * 2 ^ n + sig.toNat % 2 ^ n := by
        rw [Nat.div_add_mod]
    _ = _ := by rw [hguard, hkept]; ring

section
variable {sig : BitVec 24} {n : Nat}

/-- R96: without the guard bit, round down. -/
theorem roundingUnit_of_no_guard (hg : ruGuard sig n = false) : roundingUnit sig n = ruKept sig n := by
  simp [roundingUnit, ruIncrement, hg]

/-- R96: with guard and sticky, round up. -/
theorem roundingUnit_of_sticky (hg : ruGuard sig n = true) (hst : sig.toNat % 2 ^ (n - 1) ≠ 0) :
    roundingUnit sig n = ruKept sig n + 1 := by
  simp [roundingUnit, ruIncrement, hg, (ruSticky_iff sig n).2 hst]

/-- R96: a tie rounds up only from an odd kept part. -/
theorem roundingUnit_of_tie (hg : ruGuard sig n = true) (hst : sig.toNat % 2 ^ (n - 1) = 0) :
    roundingUnit sig n = ruKept sig n + ruKept sig n % 2 := by
  have hsticky : ruSticky sig n = false := by simp [ruSticky, hst]
  have hodd := Nat.toNat_testBit (ruKept sig n) 0
  rw [Nat.pow_zero, Nat.div_one] at hodd
  rw [roundingUnit, ruIncrement, hg, hsticky, Bool.true_and, Bool.false_or, hodd]

end

theorem roundingUnit_roundsTo (sig : BitVec 24) {n : Nat} (hn : 0 < n) :
    RoundsTo sig.toNat (2 ^ n) (roundingUnit sig n) := by
  obtain ⟨n, rfl⟩ := Nat.exists_eq_succ_of_ne_zero hn.ne'
  have hparts := toNat_eq_ru_parts sig n
  have hst := Nat.mod_lt sig.toNat (Nat.two_pow_pos n)
  have hunit : ∀ r, 2 * r * 2 ^ n.succ = 4 * (r * 2 ^ n) := fun r => by rw [Nat.pow_succ]; ring
  rw [RoundsTo, hunit, Nat.pow_succ]
  cases hg : ruGuard sig (n + 1) with
  | false =>
    rw [roundingUnit_of_no_guard hg]
    simp only [hg, Bool.toNat_false] at hparts
    omega
  | true =>
    simp only [hg, Bool.toNat_true] at hparts
    by_cases hst0 : sig.toNat % 2 ^ n = 0
    · rw [roundingUnit_of_tie hg hst0]
      rcases Nat.mod_two_eq_zero_or_one (ruKept sig (n + 1)) with heven | hodd
      · rw [heven, Nat.add_zero]
        omega
      · rw [hodd, Nat.add_mul]
        omega
    · rw [roundingUnit_of_sticky hg hst0, Nat.add_mul]
      omega

/-- Settles O34: the bound and the tie are `roundingUnit_roundsTo`, the rest R96's three ways. -/
theorem roundingUnitRoundsToNearestEven : Obligations.RoundingUnitRoundsToNearestEven := by
  intro sig n hn _
  have hround := roundingUnit_roundsTo sig (n := n) (by omega)
  rw [← ruKept_eq_div, ← ruGuard_eq_testBit]
  exact ⟨hround.1, hround.2, roundingUnit_of_no_guard, roundingUnit_of_sticky, roundingUnit_of_tie⟩

theorem ruKept_mul_lt (sig : BitVec 24) (n : Nat) : ruKept sig n * 2 ^ n < 2 ^ 24 := by
  rw [ruKept_eq_div]
  exact (Nat.div_mul_le_self _ _).trans_lt sig.isLt

/-- R96: a shift by 25 leaves neither kept part nor guard. -/
@[simp] theorem roundingUnit_25 (sig : BitVec 24) : roundingUnit sig 25 = 0 := by
  have hkept : ruKept sig 25 = 0 := by
    have := ruKept_mul_lt sig 25
    omega
  have hguard : ruGuard sig 25 = false := BitVec.getLsbD_of_ge sig 24 le_rfl
  rw [roundingUnit_of_no_guard hguard, hkept]

theorem roundingUnit_mul_le (sig : BitVec 24) {n : Nat} (hn : n ≤ 25) :
    roundingUnit sig n * 2 ^ n ≤ 2 ^ 24 := by
  rcases Nat.lt_or_eq_of_le hn with hlt | rfl
  · have hpow : 2 ^ 24 = 2 ^ (24 - n) * 2 ^ n := by rw [← Nat.pow_add]; congr 1; omega
    have hkept : ruKept sig n < 2 ^ (24 - n) :=
      Nat.lt_of_mul_lt_mul_right (a := 2 ^ n) (hpow ▸ ruKept_mul_lt sig n)
    have hinc : (ruIncrement sig n).toNat ≤ 1 := Bool.toNat_le _
    rw [hpow]
    exact Nat.mul_le_mul_right _ (by rw [roundingUnit]; omega)
  · simp

/-- R97: `2 ^ (24 - n)` comes only of a carry out of the kept bits. -/
theorem roundingUnit_mul_eq_iff (sig : BitVec 24) (n : Nat) :
    roundingUnit sig n * 2 ^ n = 2 ^ 24 ↔
      (ruKept sig n + 1) * 2 ^ n = 2 ^ 24 ∧ ruIncrement sig n = true := by
  cases hinc : ruIncrement sig n with
  | true => simp [roundingUnit, hinc]
  | false => simpa [roundingUnit, hinc] using (ruKept_mul_lt sig n).ne

theorem roundingUnit_13_le (sig : BitVec 24) : roundingUnit sig 13 ≤ 2048 := by
  have := roundingUnit_mul_le sig (n := 13) (by omega)
  omega

theorem le_roundingUnit_13 {sig : BitVec 24} (h : 2 ^ 23 ≤ sig.toNat) : 1024 ≤ roundingUnit sig 13 := by
  have hkept : ruKept sig 13 = sig.toNat / 2 ^ 13 := ruKept_eq_div sig 13
  rw [roundingUnit]
  omega

theorem roundingUnit_le_of_14_le (sig : BitVec 24) {n : Nat} (h14 : 14 ≤ n) (hn : n ≤ 25) :
    roundingUnit sig n ≤ 1024 := by
  have hle : roundingUnit sig n * 2 ^ 14 ≤ 2 ^ 24 :=
    (Nat.mul_le_mul_left _ (Nat.pow_le_pow_right Nat.two_pos h14)).trans (roundingUnit_mul_le sig hn)
  omega

end Sys2Proof.Machine
end

section
/-! PROOFS. IEEE encode by its cases (41_ieee_codec.md R98), through one formula for the rounded magnitude
before it is clamped, which alt encode shares (42_alt_codec.md R112). -/

namespace Sys2Proof.Machine

/-- How far the significand is shifted right, by the exponent field: 13 in the normal range of a half,
one more for each binade below it, and at most 25 (R98). -/
def encodeShift (e : Nat) : Nat := max 13 (min (126 - e) 25)

/-- The magnitude code that rounding gives, before any clamp: the binades of a half start at exponent
field 113 of a binary32 (u = -14), and the carry of `RU` is added as it comes (R97, R98). -/
def roundedCode (e : BitVec 8) (m : BitVec 23) : Nat :=
  (e.toNat - 113) * 1024 + roundingUnit (significand m) (encodeShift e.toNat)

section
variable {e : BitVec 8} (m : BitVec 23)

theorem roundedCode_normal (he : 113 ≤ e.toNat) :
    roundedCode e m = (e.toNat - 113) * 1024 + roundingUnit (significand m) 13 := by
  rw [roundedCode, show encodeShift e.toNat = 13 by unfold encodeShift; omega]

theorem roundedCode_subnormal (he : e.toNat ≤ 112) :
    roundedCode e m = roundingUnit (significand m) (min (126 - e.toNat) 25) := by
  rw [roundedCode, show e.toNat - 113 = 0 by omega,
    show encodeShift e.toNat = min (126 - e.toNat) 25 by unfold encodeShift; omega, Nat.zero_mul, Nat.zero_add]

theorem roundedCode_subnormal_le (he : e.toNat ≤ 112) : roundedCode e m ≤ 1024 := by
  rw [roundedCode_subnormal m he]
  exact roundingUnit_le_of_14_le _ (by omega) (by omega)

theorem le_roundedCode_normal (he : 113 ≤ e.toNat) : (e.toNat - 112) * 1024 ≤ roundedCode e m := by
  have hsig : 2 ^ 23 ≤ (significand m).toNat := by rw [significand_toNat]; omega
  have := le_roundingUnit_13 hsig
  rw [roundedCode_normal m he]
  omega

theorem roundedCode_normal_le (he : 113 ≤ e.toNat) : roundedCode e m ≤ (e.toNat - 111) * 1024 := by
  have := roundingUnit_13_le (significand m)
  rw [roundedCode_normal m he]
  omega

/-- R98, R112: both encodes clamp the rounded code, for any clamp above the subnormals and not above the
first code beyond the format's exponents. -/
theorem encodeMagnitude_eq_min {top : Int} {clamp : Nat} (hlow : 1024 ≤ clamp)
    (hhigh : clamp ≤ (top + 15) * 1024) :
    encodeMagnitude top clamp e m = min (roundedCode e m) clamp := by
  simp only [encodeMagnitude]
  split_ifs with htop hnorm
  · have := le_roundedCode_normal (e := e) m (by omega)
    omega
  · rw [roundedCode_normal m (by omega), Nat.shiftLeft_eq,
      show ((e.toNat : Int) - 127 + 14).toNat = e.toNat - 113 by omega]
  · have := roundedCode_subnormal_le (e := e) m (by omega)
    rw [Nat.min_eq_left (by omega), roundedCode_subnormal m (by omega)]
    congr 1
    omega

end

/-- R98, R100: exponent field 0 takes the path of the saturated shift, whose result is 0. -/
theorem roundedCode_zero (m : BitVec 23) : roundedCode 0#8 m = 0 := by
  rw [roundedCode_subnormal m (by decide)]
  exact roundingUnit_25 _

section
variable (P : Params) {w : Single}

theorem encodeIeee_infinity (he : singleExp w = 255#8) (hm : singleMan w = 0#23) :
    encodeIeee P w = packHalfMag (singleSign w) 0x7C00#15 := by
  simp [encodeIeee, he, hm]

theorem encodeIeee_nan (he : singleExp w = 255#8) (hm : singleMan w ≠ 0#23) :
    encodeIeee P w = P.encNan (singleSign w) (singleMan w) := by
  simp [encodeIeee, he, hm]

/-- R98: every finite binary32, zero and subnormal included, encodes to its rounded code, clamped at
the infinity. -/
theorem encodeIeee_finite (he : singleExp w ≠ 255#8) :
    encodeIeee P w = packHalfMag (singleSign w)
      (BitVec.ofNat 15 (min (roundedCode (singleExp w) (singleMan w)) 0x7C00)) := by
  simp only [encodeIeee, if_neg he]
  split_ifs with h0
  · rw [h0, roundedCode_zero]
    rfl
  · rw [encodeMagnitude_eq_min _ (by decide) (by decide)]

/-- R112: as R98, with the clamp of the alt format. -/
theorem encodeAlt_finite (he : singleExp w ≠ 255#8) :
    encodeAlt P w = packHalfMag (singleSign w)
      (BitVec.ofNat 15 (min (roundedCode (singleExp w) (singleMan w)) 0x7FFF)) := by
  simp only [encodeAlt, if_neg he]
  split_ifs with h0
  · rw [h0, roundedCode_zero]
    rfl
  · rw [encodeMagnitude_eq_min _ (by decide) (by decide)]

end

/-- Below exponent field 255 a binary32 is finite. -/
theorem singleExp_ne_of_toNat_le {w : Single} (h : (singleExp w).toNat ≤ 254) : singleExp w ≠ 255#8 := by
  intro he
  simp [he] at h

theorem drives_singleToIeeeHalfValue (a : Port) (s : State) :
    Drives (.singleToIeeeHalfValue a) s (placeHalf (encodeIeee hardware (singleOperand a))) := rfl

theorem drives_singleToAltHalfValue (a : Port) (s : State) :
    Drives (.singleToAltHalfValue a) s (placeHalf (encodeAlt hardware (singleOperand a))) := rfl

/-- Settles O36: the encode of the operand slice, case by case. -/
theorem ieeeEncodeFollowsItsCases : Obligations.IeeeEncodeFollowsItsCases := by
  intro a s
  refine ⟨_, drives_singleToIeeeHalfValue a s, fun he hm => ?_, fun he hm => ?_, fun he => ?_,
    fun hlow hhigh => ?_, fun hlow hhigh => ?_, fun hlow hhigh => ?_⟩
  · exact encodeIeee_nan hardware (BitVec.eq_of_toNat_eq he) hm
  · exact encodeIeee_infinity hardware (BitVec.eq_of_toNat_eq he) hm
  · have he0 : singleExp (singleOperand a) = 0#8 := BitVec.eq_of_toNat_eq he
    rw [encodeIeee_finite hardware (singleExp_ne_of_toNat_le (by omega)), he0, roundedCode_zero, Nat.zero_min]
  · have hbeyond := le_roundedCode_normal (singleMan (singleOperand a)) (Nat.le_trans (by decide) hlow)
    rw [encodeIeee_finite hardware (singleExp_ne_of_toNat_le hhigh), Nat.min_eq_right (by omega)]
  · rw [encodeIeee_finite hardware (singleExp_ne_of_toNat_le (by omega)), roundedCode_normal _ hlow]
  · have hclamp := roundedCode_subnormal_le (singleMan (singleOperand a)) hhigh
    rw [encodeIeee_finite hardware (singleExp_ne_of_toNat_le (by omega)), Nat.min_eq_left (by omega),
      roundedCode_subnormal _ hhigh]

/-- R97: a carry in the normal path, in either encode. -/
theorem roundedCode_carry {w : Single} (hlow : 113 ≤ (singleExp w).toNat)
    (hcarry : roundingUnit (significand (singleMan w)) 13 = 2048) :
    roundedCode (singleExp w) (singleMan w) = ((singleExp w).toNat - 111) * 1024 := by
  rw [roundedCode_normal _ hlow, hcarry]
  omega

/-- Settles O35: the ranges are those of the rounding unit; the carry then goes through the formula for
the rounded code, which no clamp changes. -/
theorem roundingUnitRangeAndCarry : Obligations.RoundingUnitRangeAndCarry := by
  refine ⟨fun sig n _ hn => ⟨ruKept_mul_lt sig n, roundingUnit_mul_le sig hn, roundingUnit_mul_eq_iff sig n,
    ?_, fun h14 => roundingUnit_le_of_14_le sig h14 hn⟩, fun P w hlow hhigh hcarry => ?_,
    fun P w hlow hhigh hcarry => ?_⟩
  · rintro rfl hlead
    exact ⟨le_roundingUnit_13 (Nat.ge_two_pow_of_testBit hlead), roundingUnit_13_le sig⟩
  · have hcode := roundedCode_carry hlow hcarry
    rw [encodeIeee_finite P (singleExp_ne_of_toNat_le (by omega)),
      encodeAlt_finite P (singleExp_ne_of_toNat_le (by omega)), hcode, Nat.min_eq_left (by omega),
      Nat.min_eq_left (by omega)]
    have hpack := packHalfMag_ofNat (singleSign w) ((singleExp w).toNat - 111) (m := 0) (by decide)
    rw [Nat.add_zero] at hpack
    exact ⟨hpack, hpack⟩
  · have hcode := (roundedCode_subnormal (singleMan w) hhigh).trans hcarry
    rw [encodeIeee_finite P (singleExp_ne_of_toNat_le (by omega)),
      encodeAlt_finite P (singleExp_ne_of_toNat_le (by omega)), hcode]
    exact ⟨rfl, rfl⟩

theorem encodeIeee_hardware_nan {w : Single} (hnan : singleClass w = .nan) :
    encodeIeee hardware w = packHalfMag (singleSign w) 0x7E00#15 := by
  obtain ⟨he, hm⟩ := (singleClass_eq_nan_iff w).1 hnan
  exact encodeIeee_nan hardware he hm

/-- R101: what a conforming block gives for a binary32 NaN. -/
theorem encodeIeee_nan_fields {P : Params} (hP : P.Conforming) {w : Single} (hnan : singleClass w = .nan) :
    ieeeClass (encodeIeee P w) = .nan ∧ halfSign (encodeIeee P w) = singleSign w := by
  obtain ⟨he, hm⟩ := (singleClass_eq_nan_iff w).1 hnan
  rw [encodeIeee_nan P he hm]
  exact ⟨(ieeeClass_eq_nan_iff _).2 ⟨hP.encNan_exponent _ _ hm, hP.encNan_mantissa _ _ hm⟩,
    hP.encNan_sign _ _ hm⟩

/-- Settles O40: this hardware's ENC_NAN, the infinity case, and R101's constraints on ENC_NAN. -/
theorem ieeeEncodeKeepsNanAndInfinity : Obligations.IeeeEncodeKeepsNanAndInfinity := by
  refine ⟨fun a s hnan => ?_, fun a s hinf => ?_, fun P w hP hnan => encodeIeee_nan_fields hP hnan⟩
  · rw [← encodeIeee_hardware_nan hnan]
    exact drives_singleToIeeeHalfValue a s
  · obtain ⟨he, hm⟩ := (singleClass_eq_infinity_iff _).1 hinf
    rw [← encodeIeee_infinity hardware he hm]
    exact drives_singleToIeeeHalfValue a s

end Sys2Proof.Machine
end

section
/-! PROOFS. The rounded code is that of the half nearest in value, ties to the even code (00_scope.md R14,
41_ieee_codec.md R99, R100, R105). Magnitudes are counted in units of 2^-149 throughout: a code `c` stands
for `codeUnits c * 2 ^ 125` of them. -/

namespace Sys2Proof.Machine

/-- Halfway between the magnitudes of the codes `c` and `c + 1`, in units of 2^-149. -/
def codeMidpoint (c : Nat) : Nat := (codeUnits c + codeUnits (c + 1)) * 2 ^ 124

theorem codeMidpoint_strictMono : StrictMono codeMidpoint := fun _ _ h =>
  Nat.mul_lt_mul_of_pos_right
    (Nat.add_lt_add (codeUnits_strictMono h) (codeUnits_strictMono (Nat.succ_lt_succ h))) (Nat.two_pow_pos _)

theorem codeMidpoint_binade {b k : Nat} (hlow : b = 0 ∨ 1024 ≤ k) (hk : k < 2048) :
    codeMidpoint (b * 1024 + k) = (2 * k + 1) * 2 ^ (b + 124) := by
  rw [codeMidpoint, Nat.add_assoc, codeUnits_binade hlow hk.le, codeUnits_binade (by omega) hk, Nat.pow_add,
    Nat.succ_eq_add_one]
  ring

/-- Magnitude `x` lies between the midpoints on the two sides of code `c`, and on one of them only if `c`
is even. -/
def RoundsToCode (x c : Nat) : Prop :=
  (∀ k, k + 1 = c → codeMidpoint k ≤ x ∧ (codeMidpoint k = x → c % 2 = 0)) ∧
    x ≤ codeMidpoint c ∧ (x = codeMidpoint c → c % 2 = 0)

/-- Rounding a count of one binade's unit gives the nearest code, the carry into the next binade
included. -/
theorem RoundsTo.roundsToCode {x b r : Nat} (h : RoundsTo x (2 ^ (b + 125)) r) (hr : b = 0 ∨ 1024 ≤ r)
    (hr' : r ≤ 2048) (hx : b = 0 ∨ 2 ^ (b + 135) ≤ x) (hx' : x < 2 ^ (b + 136)) :
    RoundsToCode x (b * 1024 + r) := by
  have hunit : ∀ r, 2 * r * 2 ^ (b + 125) = 4 * (r * 2 ^ (b + 124)) := fun r => by
    rw [show b + 125 = b + 124 + 1 by omega, Nat.pow_succ]
    ring
  have hmid : ∀ k, (2 * k + 1) * 2 ^ (b + 124) = 2 * (k * 2 ^ (b + 124)) + 2 ^ (b + 124) := fun k => by ring
  have hpos := Nat.two_pow_pos (b + 124)
  have hd : 2 ^ (b + 125) = 2 * 2 ^ (b + 124) := Nat.pow_succ'
  have hlow : 2 ^ (b + 135) = 2 ^ (b + 124) * 2 ^ 11 := Nat.pow_add 2 (b + 124) 11
  have hhigh : 2 ^ (b + 136) = 2 ^ (b + 124) * 2 ^ 12 := Nat.pow_add 2 (b + 124) 12
  rw [RoundsTo, hunit, hd] at h
  obtain ⟨⟨hup, hdown⟩, heven⟩ := h
  refine ⟨fun k hk => ?_, ?_⟩
  · by_cases hfirst : b ≠ 0 ∧ r = 1024
    · -- the binade's lower end: the midpoint below it lies in the binade before
      obtain ⟨hb, rfl⟩ := hfirst
      obtain ⟨b, rfl⟩ := Nat.exists_eq_succ_of_ne_zero hb
      obtain rfl : k = b * 1024 + 2047 := by omega
      have hhalf : 2 ^ (b.succ + 124) = 2 * 2 ^ (b + 124) := by rw [Nat.succ_add, Nat.pow_succ']
      rw [codeMidpoint_binade (.inr (by omega)) (by omega)]
      omega
    · obtain ⟨j, rfl⟩ : ∃ j, r = j + 1 := Nat.exists_eq_succ_of_ne_zero (by omega)
      obtain rfl : k = b * 1024 + j := by omega
      rw [codeMidpoint_binade (by omega) (by omega), hmid]
      rw [Nat.add_mul] at hup hdown heven
      omega
  · rcases Nat.lt_or_eq_of_le hr' with hlt | rfl
    · rw [codeMidpoint_binade hr hlt, hmid]
      omega
    · -- the carry: the midpoint above it lies in the next binade
      rw [show b * 1024 + 2048 = (b + 1) * 1024 + 1024 by omega,
        codeMidpoint_binade (.inr le_rfl) (by omega), show b + 1 + 124 = b + 125 by omega, hd]
      omega

/-- What a rounded code says of any midpoint: it is at or below `x` exactly for the codes below `c`, a
midpoint hit exactly belonging to the even one of its two codes (R105). -/
theorem RoundsToCode.lt_iff {x c : Nat} (h : RoundsToCode x c) (k : Nat) :
    k < c ↔ codeMidpoint k < x ∨ codeMidpoint k = x ∧ k % 2 = 1 := by
  obtain ⟨hbelow, habove, heven⟩ := h
  constructor
  · intro hk
    obtain ⟨j, rfl⟩ : ∃ j, c = j + 1 := Nat.exists_eq_succ_of_ne_zero (by omega)
    obtain ⟨hj, hjeven⟩ := hbelow j rfl
    rcases Nat.lt_or_eq_of_le (Nat.le_of_lt_succ hk) with hlt | rfl
    · exact .inl ((codeMidpoint_strictMono hlt).trans_le hj)
    · omega
  · intro hx
    by_contra hk
    rcases Nat.lt_or_eq_of_le (Nat.le_of_not_lt hk) with hlt | rfl
    · have := codeMidpoint_strictMono hlt
      omega
    · omega

theorem RoundsToCode.lt_iff_of_odd {x c k : Nat} (h : RoundsToCode x c) (hk : k % 2 = 1) :
    k < c ↔ codeMidpoint k ≤ x := by
  rw [h.lt_iff k]
  omega

theorem RoundsToCode.lt_iff_of_even {x c k : Nat} (h : RoundsToCode x c) (hk : k % 2 = 0) :
    k < c ↔ codeMidpoint k < x := by
  rw [h.lt_iff k]
  omega

/-- A magnitude that a code stands for rounds to that code. -/
theorem RoundsToCode.eq_of_codeUnits {c c' : Nat} (h : RoundsToCode (codeUnits c * 2 ^ 125) c') : c' = c := by
  obtain ⟨hbelow, habove, -⟩ := h
  rcases Nat.lt_trichotomy c' c with hlt | heq | hlt
  · have h1 := codeUnits_strictMono hlt
    have h2 : codeUnits (c' + 1) ≤ codeUnits c := codeUnits_strictMono.monotone hlt
    rw [codeMidpoint] at habove
    omega
  · exact heq
  · obtain ⟨j, rfl⟩ : ∃ j, c' = j + 1 := Nat.exists_eq_succ_of_ne_zero (by omega)
    have h1 := codeUnits_strictMono hlt
    have h2 := codeUnits_strictMono.monotone (Nat.le_of_lt_succ hlt)
    have h3 := (hbelow j rfl).1
    rw [codeMidpoint] at h3
    omega

/-- The midpoint of the rounded code and any code below it is at or below `x`, and is `x` only if the
rounded code is even. -/
theorem RoundsToCode.sum_le {x c k : Nat} (h : RoundsToCode x c) (hk : k < c) :
    codeUnits c * 2 ^ 125 + codeUnits k * 2 ^ 125 ≤ 2 * x ∧
      (codeUnits c * 2 ^ 125 + codeUnits k * 2 ^ 125 = 2 * x → c % 2 = 0) := by
  obtain ⟨j, rfl⟩ : ∃ j, c = j + 1 := Nat.exists_eq_succ_of_ne_zero (by omega)
  obtain ⟨hj, hjeven⟩ := h.1 j rfl
  have := codeUnits_strictMono.monotone (Nat.le_of_lt_succ hk)
  rw [codeMidpoint] at hj hjeven
  omega

/-- As `RoundsToCode.sum_le`, for a code above. -/
theorem RoundsToCode.le_sum {x c k : Nat} (h : RoundsToCode x c) (hk : c < k) :
    2 * x ≤ codeUnits c * 2 ^ 125 + codeUnits k * 2 ^ 125 ∧
      (codeUnits c * 2 ^ 125 + codeUnits k * 2 ^ 125 = 2 * x → c % 2 = 0) := by
  obtain ⟨-, habove, heven⟩ := h
  have : codeUnits (c + 1) ≤ codeUnits k := codeUnits_strictMono.monotone hk
  rw [codeMidpoint] at habove heven
  omega

theorem singleUnits_eq_significand {w : Single} (he : 1 ≤ (singleExp w).toNat) :
    singleUnits w = (significand (singleMan w)).toNat * 2 ^ ((singleExp w).toNat - 1) := by
  rw [singleUnits, if_neg (fun h => by simp [h] at he), significand_toNat]

/-- A binary32 lies below the end of its binade, and so does a subnormal. -/
theorem singleUnits_lt (w : Single) : singleUnits w < 2 ^ ((singleExp w).toNat + 23) := by
  by_cases he : singleExp w = 0#8
  · rw [singleUnits, if_pos he, he]
    exact (singleMan w).isLt
  · have hpos : 1 ≤ (singleExp w).toNat := Nat.pos_of_ne_zero fun h => he (BitVec.eq_of_toNat_eq h)
    rw [singleUnits_eq_significand hpos,
      show (singleExp w).toNat + 23 = 24 + ((singleExp w).toNat - 1) by omega, Nat.pow_add]
    exact Nat.mul_lt_mul_of_pos_right (significand _).isLt (Nat.two_pow_pos _)

theorem le_singleUnits {w : Single} (he : 1 ≤ (singleExp w).toNat) :
    2 ^ ((singleExp w).toNat + 22) ≤ singleUnits w := by
  rw [singleUnits_eq_significand he, significand_toNat,
    show (singleExp w).toNat + 22 = 23 + ((singleExp w).toNat - 1) by omega, Nat.pow_add]
  exact Nat.mul_le_mul_right _ (Nat.le_add_right _ _)

/-- The rounding unit rounds the magnitude in the unit of the half's binade: `2 ^ 125` is 2^-24, the unit
of the subnormals, and each binade above them doubles it. -/
theorem singleUnits_roundsTo (w : Single) :
    RoundsTo (singleUnits w) (2 ^ ((singleExp w).toNat - 113 + 125))
      (roundingUnit (significand (singleMan w)) (encodeShift (singleExp w).toNat)) := by
  rcases Nat.lt_or_ge (singleExp w).toNat 101 with hlow | hhigh
  · -- the saturated shift: less than half a unit
    have hx : singleUnits w < 2 ^ 124 :=
      (singleUnits_lt w).trans_le (Nat.pow_le_pow_right Nat.two_pos (by omega))
    rw [show encodeShift (singleExp w).toNat = 25 by unfold encodeShift; omega, roundingUnit_25,
      show (singleExp w).toNat - 113 = 0 by omega]
    exact roundsTo_zero (by omega)
  · have hshift : 0 < encodeShift (singleExp w).toNat := by unfold encodeShift; omega
    have hscaled := (roundingUnit_roundsTo (significand (singleMan w)) hshift).mul_right
      (Nat.two_pow_pos ((singleExp w).toNat - 1))
    rw [← singleUnits_eq_significand (by omega), ← Nat.pow_add] at hscaled
    rwa [show (singleExp w).toNat - 113 + 125 =
      encodeShift (singleExp w).toNat + ((singleExp w).toNat - 1) by unfold encodeShift; omega]

/-- Below the normal range of a half the rounded code is the rounded count of 2^-24 (R100). -/
theorem singleUnits_roundsTo_of_subnormal {w : Single} (he : (singleExp w).toNat ≤ 112) :
    RoundsTo (singleUnits w) (2 ^ 125) (roundedCode (singleExp w) (singleMan w)) := by
  have hround := singleUnits_roundsTo w
  rw [show (singleExp w).toNat - 113 = 0 by omega, Nat.zero_add] at hround
  rwa [roundedCode, show (singleExp w).toNat - 113 = 0 by omega, Nat.zero_mul, Nat.zero_add]

/-- Whatever the exponent field, the code an encode rounds to is the nearest (R98, R105). -/
theorem singleUnits_roundsToCode (w : Single) :
    RoundsToCode (singleUnits w) (roundedCode (singleExp w) (singleMan w)) := by
  have hround := singleUnits_roundsTo w
  have hlt := singleUnits_lt w
  rcases Nat.lt_or_ge (singleExp w).toNat 113 with hlow | hhigh
  · have hcode := roundedCode_subnormal_le (singleMan w) (Nat.le_of_lt_succ hlow)
    have hbinade : (singleExp w).toNat - 113 = 0 := by omega
    have hx : singleUnits w < 2 ^ 136 := hlt.trans_le (Nat.pow_le_pow_right Nat.two_pos (by omega))
    rw [roundedCode] at hcode
    exact hround.roundsToCode (.inl hbinade) (by omega) (.inl hbinade) (by rwa [hbinade])
  · have hcode := le_roundedCode_normal (singleMan w) hhigh
    have hcode' := roundedCode_normal_le (singleMan w) hhigh
    have hge := le_singleUnits (w := w) (by omega)
    rw [roundedCode] at hcode hcode'
    refine hround.roundsToCode (.inr (by omega)) (by omega) (.inr ?_) ?_
    · rw [show (singleExp w).toNat - 113 + 135 = (singleExp w).toNat + 22 by omega]
      exact hge
    · rw [show (singleExp w).toNat - 113 + 136 = (singleExp w).toNat + 23 by omega]
      exact hlt

end Sys2Proof.Machine
end

section
/-! PROOFS. IEEE encode in values (41_ieee_codec.md R98 to R100, R103, R105): nearest, ties to even; the
thresholds of overflow and underflow, as midpoints between codes; the round trip. -/

namespace Sys2Proof.Machine

/-- Of two numbers, the one on `x`'s side of their midpoint is no farther from `x` than the other. -/
theorem abs_sub_le_of_midpoint {a b x : ℚ} (hba : b < a → a + b ≤ 2 * x)
    (hab : a < b → 2 * x ≤ a + b) : |a - x| ≤ |b - x| := by
  rw [← sq_le_sq]
  rcases lt_trichotomy b a with hlt | rfl | hlt
  · nlinarith [hba hlt]
  · exact le_rfl
  · nlinarith [hab hlt]

/-- Two numbers equally far from `x` have it as their midpoint. -/
theorem add_eq_of_abs_sub_eq {a b x : ℚ} (h : |a - x| = |b - x|) (hne : b ≠ a) : a + b = 2 * x := by
  rcases abs_eq_abs.1 h with heq | heq
  · exact absurd (by linarith) hne
  · linarith

/-- The magnitude that a code stands for. -/
def codeMagnitude (c : Nat) : ℚ := codeUnits c * (2 : ℚ) ^ (-24 : ℤ)

theorem abs_halfValue_eq_codeMagnitude (h : Half) : |halfValue h| = codeMagnitude (halfCode h) := by
  rw [abs_halfValue, halfUnits_eq_codeUnits, codeMagnitude]

theorem abs_singleValue_eq_magnitude (w : Single) : |singleValue w| = singleMagnitude w := by
  rw [abs_singleValue, singleMagnitude_eq_units]

theorem codeMagnitude_strictMono : StrictMono codeMagnitude := fun _ _ h =>
  mul_lt_mul_of_pos_right (Nat.cast_lt.2 (codeUnits_strictMono h)) (by positivity)

/-- A code's magnitude in the units of a binary32 (R14). -/
theorem codeMagnitude_eq (c : Nat) :
    codeMagnitude c = ((codeUnits c * 2 ^ 125 : Nat) : ℚ) * (2 : ℚ) ^ (-149 : ℤ) := by
  rw [codeMagnitude]
  push_cast
  rw [mul_assoc]
  norm_num

section
variable {w : Single} {c : Nat} (h : RoundsToCode (singleUnits w) c)
include h

theorem RoundsToCode.abs_sub_le (k : Nat) :
    |codeMagnitude c - singleMagnitude w| ≤ |codeMagnitude k - singleMagnitude w| := by
  have hunit : (0 : ℚ) < (2 : ℚ) ^ (-149 : ℤ) := by positivity
  refine abs_sub_le_of_midpoint (fun hlt => ?_) fun hlt => ?_
  · have hsum := (h.sum_le (codeMagnitude_strictMono.lt_iff_lt.1 hlt)).1
    rw [codeMagnitude_eq, codeMagnitude_eq, singleMagnitude_eq_units, ← add_mul, ← mul_assoc]
    exact mul_le_mul_of_nonneg_right (by exact_mod_cast hsum) hunit.le
  · have hsum := (h.le_sum (codeMagnitude_strictMono.lt_iff_lt.1 hlt)).1
    rw [codeMagnitude_eq, codeMagnitude_eq, singleMagnitude_eq_units, ← add_mul, ← mul_assoc]
    exact mul_le_mul_of_nonneg_right (by exact_mod_cast hsum) hunit.le

/-- R105: where another code is as near, the code is even. -/
theorem RoundsToCode.even_of_tie {k : Nat} (hk : k ≠ c)
    (htie : |codeMagnitude c - singleMagnitude w| = |codeMagnitude k - singleMagnitude w|) : c % 2 = 0 := by
  have hunit : (2 : ℚ) ^ (-149 : ℤ) ≠ 0 := by positivity
  have hsum := add_eq_of_abs_sub_eq htie (codeMagnitude_strictMono.injective.ne hk)
  rw [codeMagnitude_eq, codeMagnitude_eq, singleMagnitude_eq_units, ← add_mul, ← mul_assoc] at hsum
  have hnat : codeUnits c * 2 ^ 125 + codeUnits k * 2 ^ 125 = 2 * singleUnits w := by
    exact_mod_cast mul_right_cancel₀ hunit hsum
  rcases Nat.lt_or_gt_of_ne hk with hlt | hlt
  · exact (h.sum_le hlt).2 hnat
  · exact (h.le_sum hlt).2 hnat

end

/-- Two values of one sign are as far apart as their magnitudes. -/
theorem abs_halfValue_sub_of_sign {h : Half} {w : Single} (hs : halfSign h = singleSign w) :
    |halfValue h - singleValue w| = |codeMagnitude (halfCode h) - singleMagnitude w| := by
  rw [halfValue, singleValue, hs, ← mul_sub, abs_mul, abs_signFactor, one_mul, halfMagnitude_eq_units,
    halfUnits_eq_codeUnits, codeMagnitude]

theorem getLsbD_zero_of_halfCode_even {h : Half} (hc : halfCode h % 2 = 0) : h.getLsbD 0 = false := by
  have hnat := half_toNat h
  rw [halfCode] at hc
  have heven : h.toNat % 2 = 0 := by omega
  simp [BitVec.getLsbD, Nat.testBit_zero, heven]

section
variable {h : Half} {w : Single} (hr : RoundsToCode (singleUnits w) (halfCode h))
include hr

/-- A half of the rounded code is as near to `w` as `h` only if it has `h`'s value: the value of the other
sign ties only at `w = 0`, which rounds to zero. -/
theorem halfValue_eq_of_tie {g : Half} (hcode : halfCode g = halfCode h)
    (htie : |halfValue h - singleValue w| = |halfValue g - singleValue w|) :
    halfValue g = halfValue h := by
  by_contra hne
  have habs : |halfValue h| = |halfValue g| := by
    rw [abs_halfValue_eq_codeMagnitude, abs_halfValue_eq_codeMagnitude, hcode]
  have hopp : halfValue h = -halfValue g := (abs_eq_abs.1 habs).resolve_left (Ne.symm hne)
  have hzero : singleValue w = 0 := by
    have := add_eq_of_abs_sub_eq htie hne
    linarith
  have hnear := hr.abs_sub_le 0
  rw [← abs_singleValue_eq_magnitude, hzero, abs_zero, sub_zero, sub_zero,
    ← abs_halfValue_eq_codeMagnitude] at hnear
  have hval : halfValue h = 0 := by simpa [codeMagnitude, codeUnits] using hnear
  exact hne (by linarith)

/-- A half of `w`'s sign whose code `|w|` rounds to is nearest to `w` among all halves: another half is no
nearer to `w` than its magnitude is to `|w|`. -/
theorem nearestEven_of_roundsToCode (hs : halfSign h = singleSign w) {ok : Half → Prop} (hok : ok h) :
    NearestEven ok (singleValue w) h := by
  refine ⟨hok, fun g _ => ?_⟩
  have hmag : |codeMagnitude (halfCode g) - singleMagnitude w| ≤ |halfValue g - singleValue w| := by
    rw [← abs_halfValue_eq_codeMagnitude, ← abs_singleValue_eq_magnitude]
    exact abs_abs_sub_abs_le _ _
  have hsign := abs_halfValue_sub_of_sign hs
  have hle := hr.abs_sub_le (halfCode g)
  refine ⟨hsign.le.trans (hle.trans hmag), fun htie hne => getLsbD_zero_of_halfCode_even ?_⟩
  have hcode : halfCode g ≠ halfCode h := fun heq => hne (halfValue_eq_of_tie hr heq htie)
  exact hr.even_of_tie hcode (hle.antisymm (hmag.trans (htie.symm.trans hsign).le))

end

/-! Thresholds in values are whole numbers of units of 2^-149. -/

theorem le_abs_singleValue_iff (w : Single) {q : ℚ} {n : Nat} (hq : q * 2 ^ 149 = n) :
    q ≤ |singleValue w| ↔ n ≤ singleUnits w := by
  rw [abs_singleValue, zpow_neg, ← div_eq_mul_inv, le_div_iff₀ (by positivity),
    ← Nat.cast_le (α := ℚ), ← hq]
  rfl

theorem lt_abs_singleValue_iff (w : Single) {q : ℚ} {n : Nat} (hq : q * 2 ^ 149 = n) :
    q < |singleValue w| ↔ n < singleUnits w := by
  rw [abs_singleValue, zpow_neg, ← div_eq_mul_inv, lt_div_iff₀ (by positivity),
    ← Nat.cast_lt (α := ℚ), ← hq]
  rfl

/-- The rounded code passes an odd code at the midpoint above it … -/
theorem lt_roundedCode_iff_of_odd (w : Single) {k : Nat} (hk : k % 2 = 1) {q : ℚ}
    (hq : q * 2 ^ 149 = codeMidpoint k) :
    k < roundedCode (singleExp w) (singleMan w) ↔ q ≤ |singleValue w| := by
  rw [(singleUnits_roundsToCode w).lt_iff_of_odd hk, le_abs_singleValue_iff w hq]

/-- … and an even code only above that midpoint. -/
theorem lt_roundedCode_iff_of_even (w : Single) {k : Nat} (hk : k % 2 = 0) {q : ℚ}
    (hq : q * 2 ^ 149 = codeMidpoint k) :
    k < roundedCode (singleExp w) (singleMan w) ↔ q < |singleValue w| := by
  rw [(singleUnits_roundsToCode w).lt_iff_of_even hk, lt_abs_singleValue_iff w hq]

/-- R99: 65520 is the midpoint above the largest finite half, whose code is odd. -/
theorem largest_lt_roundedCode_iff (w : Single) :
    0x7BFF < roundedCode (singleExp w) (singleMan w) ↔ 65520 ≤ |singleValue w| := by
  refine lt_roundedCode_iff_of_odd w (by decide) ?_
  rw [show codeMidpoint 0x7BFF = 4095 * 2 ^ 153 from
    codeMidpoint_binade (b := 29) (k := 2047) (.inr (by decide)) (by decide)]
  norm_num

section
variable (P : Params) {w : Single} (he : singleExp w ≠ 255#8)
include he

theorem halfSign_encodeIeee_finite : halfSign (encodeIeee P w) = singleSign w := by
  rw [encodeIeee_finite P he, halfSign_packHalfMag]

theorem halfCode_encodeIeee_finite :
    halfCode (encodeIeee P w) = min (roundedCode (singleExp w) (singleMan w)) 0x7C00 := by
  rw [encodeIeee_finite P he, halfCode_packHalfMag, BitVec.toNat_ofNat]
  omega

theorem encodeIeee_overflow (hx : 65520 ≤ |singleValue w|) :
    encodeIeee P w = packHalfMag (singleSign w) 0x7C00#15 := by
  rw [encodeIeee_finite P he, Nat.min_eq_right ((largest_lt_roundedCode_iff w).2 hx)]

theorem halfCode_encodeIeee_of_lt (hx : |singleValue w| < 65520) :
    halfCode (encodeIeee P w) = roundedCode (singleExp w) (singleMan w) ∧
      halfCode (encodeIeee P w) < 0x7C00 := by
  have hlt := mt (largest_lt_roundedCode_iff w).1 (not_le.2 hx)
  rw [halfCode_encodeIeee_finite P he]
  omega

end

theorem ieeeFinite_of_halfCode_lt {h : Half} (hc : halfCode h < 0x7C00) : ieeeFinite h := by
  refine (ieeeFinite_iff h).2 fun he => ?_
  rw [halfCode, he] at hc
  simp at hc

/-- Settles O37: below the threshold nothing is clamped, so the half has the code that the magnitude
rounds to. -/
theorem ieeeEncodeRoundsToNearestEven : Obligations.IeeeEncodeRoundsToNearestEven := by
  intro a s hfin hx
  have he := (singleFinite_iff _).1 hfin
  obtain ⟨hcode, hlt⟩ := halfCode_encodeIeee_of_lt hardware he hx
  have hsign := halfSign_encodeIeee_finite hardware he
  exact ⟨_, drives_singleToIeeeHalfValue a s, hsign,
    nearestEven_of_roundsToCode (hcode ▸ singleUnits_roundsToCode (singleOperand a)) hsign
      (ieeeFinite_of_halfCode_lt hlt)⟩

/-- Settles O38: from the threshold on the rounded code is that of the infinity or above it. -/
theorem ieeeEncodeSaturatesFrom65520 : Obligations.IeeeEncodeSaturatesFrom65520 := by
  intro a s hfin
  have he := (singleFinite_iff _).1 hfin
  exact ⟨_, drives_singleToIeeeHalfValue a s, encodeIeee_overflow hardware he,
    fun hx => ieeeFinite_of_halfCode_lt (halfCode_encodeIeee_of_lt hardware he hx).2⟩

theorem RoundsTo.abs_sub_le {x d r : Nat} (h : RoundsTo x d r) (hd : 0 < d) :
    |(r : ℚ) - x / d| ≤ 1 / 2 := by
  have hdq : (0 : ℚ) < d := by exact_mod_cast hd
  obtain ⟨⟨hup, hdown⟩, -⟩ := h
  have hupq : (2 * x : ℚ) ≤ 2 * r * d + d := by exact_mod_cast hup
  have hdownq : (2 * r * d : ℚ) ≤ 2 * x + d := by exact_mod_cast hdown
  rw [abs_le]
  constructor
  · have : (x : ℚ) / d ≤ r + 1 / 2 := by rw [div_le_iff₀ hdq]; linarith
    linarith
  · have : (r : ℚ) - 1 / 2 ≤ x / d := by rw [le_div_iff₀ hdq]; linarith
    linarith

theorem RoundsTo.even_of_tie {x d r : Nat} (h : RoundsTo x d r) (hd : 0 < d)
    (htie : |(r : ℚ) - x / d| = 1 / 2) : r % 2 = 0 := by
  have hdq : (d : ℚ) ≠ 0 := by exact_mod_cast hd.ne'
  refine h.2 ?_
  rcases (abs_eq (by norm_num)).1 htie with heq | heq
  · right
    have : (2 * r * d : ℚ) = 2 * x + d := by field_simp at heq; linarith
    exact_mod_cast this
  · left
    have : (2 * x : ℚ) = 2 * r * d + d := by field_simp at heq; linarith
    exact_mod_cast this

/-- R100: 2^-14 is where exponent field 113 of a binary32 begins. -/
theorem singleExp_le_of_lt {w : Single} (hx : |singleValue w| < (2 : ℚ) ^ (-14 : ℤ)) :
    (singleExp w).toNat ≤ 112 := by
  by_contra he
  have hge := le_singleUnits (w := w) (by omega)
  have hpow : 2 ^ 135 ≤ 2 ^ ((singleExp w).toNat + 22) := Nat.pow_le_pow_right Nat.two_pos (by omega)
  exact not_le.2 hx ((le_abs_singleValue_iff w (n := 2 ^ 135) (by norm_num)).2 (hpow.trans hge))

/-- The count of R100 in the units of a binary32. -/
theorem singleMagnitude_mul_eq_div (w : Single) :
    singleMagnitude w * 2 ^ 24 = (singleUnits w : ℚ) / ((2 ^ 125 : Nat) : ℚ) := by
  rw [singleMagnitude_eq_units, mul_assoc, div_eq_mul_inv]
  congr 1
  norm_num

/-- Up to the end of the first normal binade the midpoints are odd counts of 2^-25. -/
theorem codeMidpoint_of_lt_2048 {k : Nat} (hk : k < 2048) :
    codeMidpoint k = (2 * k + 1) * 2 ^ 124 := by
  have := codeMidpoint_binade (b := 0) (.inl rfl) hk
  rwa [Nat.zero_mul, Nat.zero_add, Nat.zero_add] at this

/-- Settles O39: below 2^-14 no clamp is met; the count is that of the rounding unit, and its thresholds
are the midpoints above the codes 0, 1 and 1023. -/
theorem underflowGivesTheRoundedCount : Obligations.UnderflowGivesTheRoundedCount := by
  intro a s w x hfin hx
  have he := (singleFinite_iff w).1 hfin
  have hexp := singleExp_le_of_lt hx
  have hle := roundedCode_subnormal_le (singleMan w) hexp
  have hround := singleUnits_roundsTo_of_subnormal hexp
  have hcount : x * 2 ^ 24 = (singleUnits w : ℚ) / ((2 ^ 125 : Nat) : ℚ) :=
    (congrArg (· * 2 ^ 24) (abs_singleValue_eq_magnitude w)).trans (singleMagnitude_mul_eq_div w)
  have h0 : 0 < roundedCode (singleExp w) (singleMan w) ↔ (2 : ℚ) ^ (-25 : ℤ) < x :=
    lt_roundedCode_iff_of_even w rfl (by rw [codeMidpoint_of_lt_2048 (by decide)]; norm_num)
  have h1 : 1 < roundedCode (singleExp w) (singleMan w) ↔ 3 / 2 * (2 : ℚ) ^ (-24 : ℤ) ≤ x :=
    lt_roundedCode_iff_of_odd w rfl (by rw [codeMidpoint_of_lt_2048 (by decide)]; norm_num)
  have h1023 : 1023 < roundedCode (singleExp w) (singleMan w) ↔
      (2047 : ℚ) / 2 * (2 : ℚ) ^ (-24 : ℤ) ≤ x :=
    lt_roundedCode_iff_of_odd w rfl (by rw [codeMidpoint_of_lt_2048 (by decide)]; norm_num)
  refine ⟨roundedCode (singleExp w) (singleMan w), hle, ?_, ?_, ?_, ?_, fun hzero => ?_, fun hlow hhigh => ?_,
    fun htop => ?_, fun hsub => ?_⟩
  · have hdrives := drives_singleToIeeeHalfValue a s
    rwa [encodeIeee_finite hardware he, Nat.min_eq_left (by omega)] at hdrives
  · have hdrives := drives_singleToAltHalfValue a s
    rwa [encodeAlt_finite hardware he, Nat.min_eq_left (by omega)] at hdrives
  · rw [hcount]
    exact hround.abs_sub_le (Nat.two_pow_pos _)
  · rw [hcount]
    exact hround.even_of_tie (Nat.two_pow_pos _)
  · exact Nat.eq_zero_of_not_pos (mt h0.1 (not_lt.2 hzero))
  · exact Nat.le_antisymm (Nat.le_of_not_lt (mt h1.1 (not_le.2 hhigh))) (h0.2 hlow)
  · exact Nat.le_antisymm hle (h1023.2 htop)
  · rw [singleExp_eq_zero_of_subnormal hsub, roundedCode_zero]

/-- R103, on the finite halves: the magnitude that decode gives is the one its code stands for, so it
rounds back to it. -/
theorem encodeIeee_decodeIeee_finite (P : Params) {h : Half} (he : halfExp h ≠ 31#5) :
    encodeIeee P (decodeIeee P h) = h := by
  obtain ⟨hsign, hexp, hunits⟩ := decodeIeee_finite P he
  have hround := singleUnits_roundsToCode (decodeIeee P h)
  rw [hunits, halfUnits_eq_codeUnits] at hround
  rw [encodeIeee_finite P hexp, hsign, hround.eq_of_codeUnits, Nat.min_eq_left, packHalfMag_halfCode]
  have hm := (halfMan h).isLt
  have he32 := (halfExp h).isLt
  have he31 : (halfExp h).toNat ≠ 31 := fun h31 => he (BitVec.eq_of_toNat_eq h31)
  rw [halfCode]
  omega

theorem encodeIeee_decodeIeee (P : Params) {h : Half} (hnan : ieeeClass h ≠ .nan) :
    encodeIeee P (decodeIeee P h) = h := by
  by_cases he : halfExp h = 31#5
  · have hm : halfMan h = 0#10 := by
      by_contra hm
      exact hnan ((ieeeClass_eq_nan_iff h).2 ⟨he, hm⟩)
    have hpack : packHalfMag (halfSign h) 0x7C00#15 = packHalf (halfSign h) 31#5 0#10 :=
      packHalfMag_eq_packHalf _ _
    rw [decodeIeee_infinity P he hm, encodeIeee_infinity P (singleExp_packSingle ..) (singleMan_packSingle ..),
      singleSign_packSingle, hpack, ← he, ← hm, packHalf_fields]
  · exact encodeIeee_decodeIeee_finite P he

/-- R103, on the NaNs, for a conforming block. -/
theorem encodeIeee_decodeIeee_nan {P : Params} (hP : P.Conforming) {h : Half} (hnan : ieeeClass h = .nan) :
    ieeeClass (encodeIeee P (decodeIeee P h)) = .nan ∧
      halfSign (encodeIeee P (decodeIeee P h)) = halfSign h := by
  obtain ⟨hclass, hsign⟩ := decodeIeee_nan_fields hP hnan
  obtain ⟨hclass', hsign'⟩ := encodeIeee_nan_fields hP hclass
  exact ⟨hclass', hsign'.trans hsign⟩

/-- Settles O41: the encode reads the decode's `y` back, and the two compose to the identity but on
NaNs. -/
theorem ieeeRoundTripIsTheIdentity : Obligations.IeeeRoundTripIsTheIdentity := by
  refine ⟨fun h s => ?_, fun P h hP hnan => encodeIeee_decodeIeee_nan hP hnan⟩
  have hy : singleToIeeeHalfValue hardware (ieeeHalfToSingleValue hardware (placeHalf h)) =
      placeHalf (encodeIeee hardware (decodeIeee hardware h)) := by
    simp [singleToIeeeHalfValue, ieeeHalfToSingleValue, bitcastSingle]
  obtain ⟨t, y, hexec, hout, hdrives⟩ :=
    exec_then_drives (o := .ieeeHalfToSingleValue) (o' := .singleToIeeeHalfValue) hy s
  refine ⟨t, y, hexec, hout, fun hnan => ?_, fun hnan => ?_⟩
  · rwa [encodeIeee_decodeIeee hardware hnan] at hdrives
  · obtain ⟨hclass, hsign⟩ := decodeIeee_nan_fields hardware_conforming hnan
    rwa [encodeIeee_hardware_nan hclass, hsign] at hdrives

end Sys2Proof.Machine
end

section
/-! PROOFS. Alt decode (42_alt_codec.md R110, R111, R116, R117): its cases by the fields of the half, where
it parts from IEEE decode, and that it keeps sign and value. -/

namespace Sys2Proof.Machine

/-! The two forms drive the decode of the operand slice (R110, R111). -/

theorem drives_altHalfToSingleBits (a : Port) (s : State) :
    Drives (.altHalfToSingleBits a) s (placeSingle (decodeAlt (halfOperand a))) := rfl

theorem drives_altHalfToSingleValue (a : Port) (s : State) :
    Drives (.altHalfToSingleValue a) s (placeSingle (decodeAlt (halfOperand a))) := rfl

section
variable {h : Half}

theorem decodeAlt_small (he : halfExp h = 0#5) :
    decodeAlt h = expandSmall (halfSign h) (halfMan h) := if_pos he

theorem decodeAlt_normal (he : halfExp h ≠ 0#5) :
    decodeAlt h = expandNormal (halfSign h) (halfExp h) (halfMan h) := if_neg he

/-- R116: below exponent field 31 the two formats decode alike, whatever the open parameters. -/
theorem decodeAlt_eq_decodeIeee (P : Params) (he : halfExp h ≠ 31#5) : decodeAlt h = decodeIeee P h := by
  by_cases h0 : halfExp h = 0#5
  · rw [decodeAlt_small h0, decodeIeee_small P h0]
  · rw [decodeAlt_normal h0, decodeIeee_normal P h0 he]

end

/-- Settles O42: the decode of the operand slice, case by case; the premises on `p` are those of the
leading-one detector. -/
theorem altDecodeFollowsItsCases : Obligations.AltDecodeFollowsItsCases := by
  intro a s
  refine ⟨_, drives_altHalfToSingleBits a s, drives_altHalfToSingleValue a s,
    fun he hm => ?_, fun he p _ hbit habove => ?_, fun hpos => ?_⟩
  · rw [decodeAlt_small he, hm, expandSmall_zero]
  · rw [decodeAlt_small he, expandSmall_of_leading_one _ hbit habove]
  · rw [decodeAlt_normal (fun h0 => by simp [h0] at hpos), expandNormal_eq_packSingle]

/-- R110 on the bits: the decode of every alt half has its sign, its magnitude and a finite exponent
field. Only exponent field 31 is new against `decodeIeee_finite`. -/
theorem decodeAlt_fields (h : Half) :
    singleSign (decodeAlt h) = halfSign h ∧ singleExp (decodeAlt h) ≠ 255#8 ∧
      singleUnits (decodeAlt h) = halfUnits h * 2 ^ 125 := by
  by_cases he : halfExp h = 31#5
  · have h0 : halfExp h ≠ 0#5 := by rw [he]; decide
    obtain ⟨hsign, hexp⟩ := expandNormal_fields (halfSign h) (halfExp h) (halfMan h)
    rw [decodeAlt_normal h0, halfUnits, if_neg h0]
    exact ⟨hsign, hexp, singleUnits_expandNormal _ h0 _⟩
  · rw [decodeAlt_eq_decodeIeee hardware he]
    exact decodeIeee_finite hardware he

theorem singleValue_decodeAlt (h : Half) : singleValue (decodeAlt h) = halfValue h := by
  obtain ⟨hsign, -, hunits⟩ := decodeAlt_fields h
  exact singleValue_eq_halfValue hsign hunits

/-- Settles O43: the fields of the decode give sign, class and value. -/
theorem altDecodeIsExact : Obligations.AltDecodeIsExact := by
  intro a s
  obtain ⟨hsign, hexp, -⟩ := decodeAlt_fields (halfOperand a)
  exact ⟨_, drives_altHalfToSingleBits a s, hsign, (singleFinite_iff _).2 hexp, singleValue_decodeAlt _⟩

/-- R116: the patterns with exponent field 31, as the two ranges of numbers that the rule lists. -/
theorem halfExp_eq_31_iff (h : Half) :
    halfExp h = 31#5 ↔ 0x7C00 ≤ h.toNat ∧ h.toNat ≤ 0x7FFF ∨ 0xFC00 ≤ h.toNat := by
  have hnat := half_toNat h
  have hs := (halfSign h).isLt
  have he := (halfExp h).isLt
  have hm := (halfMan h).isLt
  rw [← BitVec.toNat_inj, BitVec.toNat_ofNat]
  omega

theorem singleClass_eq_normal_iff (w : Single) :
    singleClass w = .normal ↔ singleExp w ≠ 0#8 ∧ singleExp w ≠ 255#8 := by
  unfold singleClass
  split_ifs with h0 hm h255 hm <;> simp [*]

/-- R110: exponent field 31 is re-biased to 143, that of a binary32 normal. -/
theorem singleClass_decodeAlt_of_31 {h : Half} (he : halfExp h = 31#5) :
    singleClass (decodeAlt h) = .normal := by
  rw [decodeAlt_normal (by rw [he]; decide), expandNormal_eq_packSingle, he, singleClass_eq_normal_iff,
    singleExp_packSingle]
  decide

/-- Settles O44: the ranges are those of exponent field 31; outside them the two decodes drive the same
`y`. -/
theorem altDivergesOnlyAtExponent31 : Obligations.AltDivergesOnlyAtExponent31 := by
  intro h s
  rw [← halfExp_eq_31_iff]
  have hdrives := drives_altHalfToSingleBits (placeHalf h) s
  rw [halfOperand_placeHalf] at hdrives
  refine ⟨fun he => ⟨_, hdrives, singleClass_decodeAlt_of_31 he⟩, fun he => ?_⟩
  have hieee := drives_ieeeHalfToSingleBits (placeHalf h) s
  rw [halfOperand_placeHalf, ← decodeAlt_eq_decodeIeee hardware he] at hieee
  exact hdrives.trans hieee.symm

theorem halfCode_le (h : Half) : halfCode h ≤ 0x7FFF := by
  have he := (halfExp h).isLt
  have hm := (halfMan h).isLt
  rw [halfCode]
  omega

end Sys2Proof.Machine
end

section
/-! PROOFS. Alt encode (42_alt_codec.md R112 to R115): its cases, and its rounding in values. Below the
clamp it rounds as IEEE encode does. -/

namespace Sys2Proof.Machine

section
variable (P : Params) {w : Single}

theorem encodeAlt_infinity (hinf : singleClass w = .infinity) :
    encodeAlt P w = P.altInf (singleSign w) := by
  obtain ⟨he, hm⟩ := (singleClass_eq_infinity_iff w).1 hinf
  simp [encodeAlt, he, hm]

theorem encodeAlt_nan (hnan : singleClass w = .nan) :
    encodeAlt P w = P.altNan (singleSign w) (singleMan w) := by
  obtain ⟨he, hm⟩ := (singleClass_eq_nan_iff w).1 hnan
  simp [encodeAlt, he, hm]

end

/-- This hardware's ALT_INF and ALT_NAN are the clamp (R114, D11, D12). -/
theorem encodeAlt_hardware_of_255 {w : Single} (he : singleExp w = 255#8) :
    encodeAlt hardware w = packHalfMag (singleSign w) 0x7FFF#15 := by
  by_cases hm : singleMan w = 0#23
  · exact encodeAlt_infinity hardware ((singleClass_eq_infinity_iff w).2 ⟨he, hm⟩)
  · exact encodeAlt_nan hardware ((singleClass_eq_nan_iff w).2 ⟨he, hm⟩)

/-- Settles O45: the encode of the operand slice, case by case. -/
theorem altEncodeFollowsItsCases : Obligations.AltEncodeFollowsItsCases := by
  intro a s
  have hfinite := fun hE => encodeAlt_finite hardware (singleExp_ne_of_toNat_le (w := singleOperand a) hE)
  refine ⟨_, drives_singleToAltHalfValue a s, fun he => ?_, fun he => ?_, fun hlow hhigh => ?_,
    fun hlow hhigh => ?_, fun _ hhigh => ?_⟩
  · exact encodeAlt_hardware_of_255 (BitVec.eq_of_toNat_eq he)
  · have he0 : singleExp (singleOperand a) = 0#8 := BitVec.eq_of_toNat_eq he
    rw [hfinite (by omega), he0, roundedCode_zero, Nat.zero_min]
  · have hbeyond := le_roundedCode_normal (singleMan (singleOperand a)) (Nat.le_trans (by decide) hlow)
    rw [hfinite hhigh, Nat.min_eq_right (by omega)]
  · rw [hfinite (by omega), roundedCode_normal _ hlow]
  · have hclamp := roundedCode_subnormal_le (singleMan (singleOperand a)) hhigh
    rw [hfinite (by omega), Nat.min_eq_left (by omega), roundedCode_subnormal _ hhigh]

/-- Settles O47: both classes have exponent field 255, where this hardware clamps. -/
theorem altEncodeOfInfinityAndNan : Obligations.AltEncodeOfInfinityAndNan := by
  refine ⟨fun a s hclass => ?_, fun P w => ⟨encodeAlt_infinity P, encodeAlt_nan P⟩⟩
  have he : singleExp (singleOperand a) = 255#8 :=
    hclass.elim (fun hinf => ((singleClass_eq_infinity_iff _).1 hinf).1)
      fun hnan => ((singleClass_eq_nan_iff _).1 hnan).1
  rw [← encodeAlt_hardware_of_255 he]
  exact drives_singleToAltHalfValue a s

/-- R113: 131040 is the midpoint above the largest alt half, whose code is odd. -/
theorem largestAlt_lt_roundedCode_iff (w : Single) :
    0x7FFF < roundedCode (singleExp w) (singleMan w) ↔ 131040 ≤ |singleValue w| := by
  refine lt_roundedCode_iff_of_odd w (by decide) ?_
  rw [show codeMidpoint 0x7FFF = 4095 * 2 ^ 154 from
    codeMidpoint_binade (b := 30) (k := 2047) (.inr (by decide)) (by decide)]
  norm_num

section
variable (P : Params) {w : Single} (he : singleExp w ≠ 255#8)
include he

theorem halfSign_encodeAlt_finite : halfSign (encodeAlt P w) = singleSign w := by
  rw [encodeAlt_finite P he, halfSign_packHalfMag]

theorem encodeAlt_overflow (hx : 131040 ≤ |singleValue w|) :
    encodeAlt P w = packHalfMag (singleSign w) 0x7FFF#15 := by
  rw [encodeAlt_finite P he, Nat.min_eq_right ((largestAlt_lt_roundedCode_iff w).2 hx).le]

theorem halfCode_encodeAlt_of_lt (hx : |singleValue w| < 131040) :
    halfCode (encodeAlt P w) = roundedCode (singleExp w) (singleMan w) := by
  have hlt := mt (largestAlt_lt_roundedCode_iff w).1 (not_le.2 hx)
  rw [encodeAlt_finite P he, halfCode_packHalfMag, BitVec.toNat_ofNat]
  omega

end

/-- Settles O46: from the threshold on the rounded code is beyond the format, below it nothing is
clamped and the half has the code that the magnitude rounds to. -/
theorem altEncodeClampsAndRounds : Obligations.AltEncodeClampsAndRounds := by
  intro a s hfin
  have he := (singleFinite_iff _).1 hfin
  have hsign := halfSign_encodeAlt_finite hardware he
  refine ⟨_, drives_singleToAltHalfValue a s, hsign, encodeAlt_overflow hardware he, fun hx => ?_⟩
  have hround := singleUnits_roundsToCode (singleOperand a)
  rw [← halfCode_encodeAlt_of_lt hardware he hx] at hround
  exact nearestEven_of_roundsToCode hround hsign trivial

/-- R115: the magnitude that decode gives is the one its code stands for, so it rounds back to it. -/
theorem encodeAlt_decodeAlt (P : Params) (h : Half) : encodeAlt P (decodeAlt h) = h := by
  obtain ⟨hsign, hexp, hunits⟩ := decodeAlt_fields h
  have hround := singleUnits_roundsToCode (decodeAlt h)
  rw [hunits, halfUnits_eq_codeUnits] at hround
  rw [encodeAlt_finite P hexp, hsign, hround.eq_of_codeUnits, Nat.min_eq_left (halfCode_le h),
    packHalfMag_halfCode]

/-- Settles O48: the encode reads the decode's `y` back, and the two compose to the identity. -/
theorem altRoundTripIsTheIdentity : Obligations.AltRoundTripIsTheIdentity := by
  intro h s
  have hy : singleToAltHalfValue hardware (altHalfToSingleValue (placeHalf h)) = placeHalf h := by
    simp [singleToAltHalfValue, altHalfToSingleValue, bitcastSingle, encodeAlt_decodeAlt]
  exact exec_then_drives (o := .altHalfToSingleValue) (o' := .singleToAltHalfValue) hy s

end Sys2Proof.Machine
end

section
/-! PROOFS. The range of the alt format (42_alt_codec.md R117), by the order of the codes. -/

namespace Sys2Proof.Machine

theorem halfSign_eq_zero_of_toNat_le {h : Half} (hle : h.toNat ≤ 0x7FFF) : halfSign h = 0#1 := by
  have hnat := half_toNat h
  rw [← BitVec.toNat_inj, BitVec.toNat_ofNat]
  omega

/-- A pattern without sign has the value of its code (R14). -/
theorem halfValue_eq_codeMagnitude {h : Half} (hs : halfSign h = 0#1) :
    halfValue h = codeMagnitude h.toNat := by
  rw [halfValue, hs, halfMagnitude_eq_units, halfUnits_eq_codeUnits, halfCode_eq_toNat hs, codeMagnitude]
  exact one_mul _

theorem codeMagnitude_largest : codeMagnitude 0x7FFF = 131008 := by
  rw [codeMagnitude, show codeUnits 0x7FFF = 2047 * 2 ^ 30 by decide]
  norm_num

theorem codeMagnitude_smallest_normal : codeMagnitude 0x0400 = (2 : ℚ) ^ (-14 : ℤ) := by
  rw [codeMagnitude, show codeUnits 0x0400 = 2 ^ 10 by decide]
  norm_num

theorem codeMagnitude_smallest_subnormal : codeMagnitude 0x0001 = (2 : ℚ) ^ (-24 : ℤ) := by
  rw [codeMagnitude, show codeUnits 0x0001 = 1 by decide]
  norm_num

theorem le_halfCode_of_altNormal {h : Half} (hclass : altClass h = .normal) : 0x0400 ≤ halfCode h := by
  have hexp : halfExp h ≠ 0#5 := by
    intro he
    rw [altClass, if_pos he] at hclass
    split_ifs at hclass
  have hpos : (halfExp h).toNat ≠ 0 := fun h0 => hexp (BitVec.eq_of_toNat_eq h0)
  rw [halfCode]
  omega

theorem le_halfCode_of_altSubnormal {h : Half} (hclass : altClass h = .subnormal) : 0x0001 ≤ halfCode h := by
  have hman : halfMan h ≠ 0#10 := by
    intro hm
    rw [altClass, if_pos hm] at hclass
    split_ifs at hclass
  have hpos : (halfMan h).toNat ≠ 0 := fun h0 => hman (BitVec.eq_of_toNat_eq h0)
  rw [halfCode]
  omega

/-- Settles O49: magnitudes are ordered as their codes are, which the classes bound; decode is exact, so
values are ordered as the patterns. -/
theorem altFormatRangeAndMonotonicity : Obligations.AltFormatRangeAndMonotonicity := by
  have hmono := codeMagnitude_strictMono.monotone
  refine ⟨(halfValue_eq_codeMagnitude (by decide)).trans codeMagnitude_largest,
    (halfValue_eq_codeMagnitude (by decide)).trans codeMagnitude_smallest_normal,
    (halfValue_eq_codeMagnitude (by decide)).trans codeMagnitude_smallest_subnormal,
    fun h => ?_, fun h hclass => ?_, fun h hclass => ?_, fun h₁ h₂ s hlt hle => ?_⟩
  · rw [abs_halfValue_eq_codeMagnitude, ← codeMagnitude_largest]
    exact hmono (halfCode_le h)
  · rw [abs_halfValue_eq_codeMagnitude, ← codeMagnitude_smallest_normal]
    exact hmono (le_halfCode_of_altNormal hclass)
  · rw [abs_halfValue_eq_codeMagnitude, ← codeMagnitude_smallest_subnormal]
    exact hmono (le_halfCode_of_altSubnormal hclass)
  · refine ⟨_, _, drives_altHalfToSingleValue _ s, drives_altHalfToSingleValue _ s, ?_⟩
    rw [halfOperand_placeHalf, halfOperand_placeHalf, singleValue_decodeAlt, singleValue_decodeAlt]
    exact halfValue_lt_of_toNat_lt (halfSign_eq_zero_of_toNat_le (hlt.le.trans hle))
      (halfSign_eq_zero_of_toNat_le hle) hlt

end Sys2Proof.Machine
end

section
/-! PROOFS. No operation raises an exception (60_exceptions.md R130): each one drives the result of the
block function, which is total. -/

namespace Sys2Proof.Machine

/-- Every decoded command completes with the block's `y` for its code and operand (R130, R131). -/
theorem drives_blockResult (i : Instr) (s : State) :
    Drives i s (blockResult hardware (codeOf i.operation) i.operand) := by
  have hdrives := drives_instr i.operation i.operand s
  rwa [instr_of_parts] at hdrives

/-- Settles O11: the `y` that the block function gives is what the outputs show. -/
theorem noOperationRaisesAnException : Obligations.NoOperationRaisesAnException :=
  fun i s => ⟨_, drives_blockResult i s⟩

end Sys2Proof.Machine
end

section
/-! PROOFS. What the ports show from reset on, and when their outputs may be read (70_reset_and_hazards.md
R150, R151, R154), on the atomic step and on a pipeline of any LATENCY (10_state.md R31). -/

namespace Sys2Proof.Machine

/-- Settles O7: `step` hands the decoded command to `exec`. -/
theorem stepRunsTheDecodedCommand : Obligations.StepRunsTheDecodedCommand :=
  fun _ _ _ hin hdec => step_of_decode hin hdec

/-- Settles O13: a presented operation completes and a presented reserved code is refused, so only a step
without a command faults. -/
theorem stepFaultsExactlyWithoutACommand : Obligations.StepFaultsExactlyWithoutACommand := by
  refine fun s r => ⟨fun hfault => ?_, fun ⟨hin, hr⟩ => hr ▸ step_of_no_input hin⟩
  cases hin : s.input with
  | none =>
    cases (step_of_no_input hin).symm.trans hfault
    exact ⟨rfl, rfl⟩
  | some c =>
    by_cases hop : isOperation c = true
    · cases (step_of_isOperation hin hop).symm.trans hfault
    · cases (step_of_not_isOperation hin hop).symm.trans hfault

/-- Settles O21: with no result to read after reset, the invariant of the ports asks nothing. -/
theorem resetShowsNoResult : Obligations.ResetShowsNoResult :=
  ⟨reset_input, reset_output, inv_of_no_output reset_output⟩

theorem step_present_of_isOperation {c : Command} (hop : isOperation c = true) (s : State) :
    step (present c s) = .next (settled c) :=
  step_of_isOperation (present_input c s) hop

theorem sample_settled (c : Command) : sample (settled c) = .next (blockOf c) :=
  sample_of_output rfl

/-- Settles O23: reset, presenting and placing a word leave no output to read and a step settles one; the
pipeline shows edge 0 at edge LATENCY and nothing before. -/
theorem onlyValidResultsAreRead : Obligations.OnlyValidResultsAreRead := by
  refine ⟨sample_of_no_output reset_output, fun s c => sample_of_no_output (present_output c s),
    fun s nbits w => sample_of_no_output (withFetchWord_output s nbits w),
    fun s c hop => ⟨settled c, step_present_of_isOperation hop s, sample_settled c⟩,
    fun P inputs t hlt => sampleAt_of_lt_latency P inputs hlt, fun P inputs c hin hop => ?_⟩
  have hfirst := sampleAt_add_latency_of_isOperation P hin hop
  rwa [Nat.zero_add] at hfirst

/-- R8, R155: no result of the block function depends on LATENCY. -/
theorem block_with_latency (P : Params) (latency : Nat) (op : OpCode) (a : Port) :
    block { P with latency := latency } op a = block P op a := rfl

/-- Settles O51: for an operation both give the block function's outputs, which do not depend on LATENCY;
a reserved code both refuse. -/
theorem pipelineAgreesWithTheAtomicStep : Obligations.PipelineAgreesWithTheAtomicStep := by
  intro latency inputs t c s hin
  by_cases hop : isOperation c = true
  · calc Pipe.sampleAt { hardware with latency := latency } inputs (t + latency)
        = .next (block { hardware with latency := latency } (opField c) (aField c)) :=
          sampleAt_add_latency_of_isOperation { hardware with latency := latency } hin hop
      _ = .next (blockOf c) := by rw [block_with_latency, blockOf]
      _ = andThen (step (present c s)) sample := by
          rw [step_present_of_isOperation hop, andThen_next, sample_settled]
  · calc Pipe.sampleAt { hardware with latency := latency } inputs (t + latency)
        = .refused (.reservedCode (opField c)) :=
          sampleAt_add_latency_of_not_isOperation { hardware with latency := latency } hin hop
      _ = andThen (step (present c s)) sample := by
          rw [step_of_not_isOperation (present_input c s) hop, andThen_refused]

end Sys2Proof.Machine
end
